-- ==== Sys2Proof/Word.lean ====
section
/-! DEFINITION. The machine's word types (spec/00_scope.md R7, R9; spec/10_state.md R20, R26, R32). -/

namespace Sys2Proof

/-- A byte of program or heap, an opcode byte, a register operand byte (R7). -/
abbrev Byte := BitVec 8

/-- A general register or the remainder register: 32 bits (R20, R32). -/
abbrev Word := BitVec 32

/-- The immediate operand of LOAD: 16 bits (R72, R80). -/
abbrev Imm := BitVec 16

/-- The program counter, a byte offset of 64 bits (R26). -/
abbrev Offset := BitVec 64

/-- The index of a general register, once the arbiter has checked it: 0 to 31 (R21). -/
abbrev RegIndex := Fin 32

end Sys2Proof
end

