-- ==== Sys2Proof/Syntax.lean ====
section
/-! DEFINITION. The 20 opcodes, the operand kinds and the instructions (spec/30_encoding.md R70 to R74). -/

namespace Sys2Proof

/-- The 20 opcodes (R3), in the order R74 lists them. ILLEGAL is a decode result and no opcode (R77). -/
inductive Op where
  | hlt | load | add | sub | mul | div | jmp | jmpf | jmpb
  | eq | neq | gt | lt | gtq | ltq | jeq | jneq | alloc | inc | dec
  deriving DecidableEq, Repr

/-- The two kinds of operand (R14, R72). -/
inductive OperandKind where
  | register
  | immediate
  deriving DecidableEq, Repr

/-- An instruction as decoded. A register operand is kept as its byte: decoding does not check its range
(R79), the arbiter does (R22). Operands stand in their encoded order (R74), the destination last (R95). -/
inductive Instr where
  | hlt
  | load (r : Byte) (imm : Imm)
  | add (ra rb rd : Byte)
  | sub (ra rb rd : Byte)
  | mul (ra rb rd : Byte)
  | div (ra rb rd : Byte)
  | jmp (r : Byte)
  | jmpf (r : Byte)
  | jmpb (r : Byte)
  | eq (ra rb : Byte)
  | neq (ra rb : Byte)
  | gt (ra rb : Byte)
  | lt (ra rb : Byte)
  | gtq (ra rb : Byte)
  | ltq (ra rb : Byte)
  | jeq (r : Byte)
  | jneq (r : Byte)
  | alloc (r : Byte)
  | inc (r : Byte)
  | dec (r : Byte)
  deriving DecidableEq, Repr

/-- Every opcode once, in the order of R74. -/
def Op.all : List Op :=
  [.hlt, .load, .add, .sub, .mul, .div, .jmp, .jmpf, .jmpb,
   .eq, .neq, .gt, .lt, .gtq, .ltq, .jeq, .jneq, .alloc, .inc, .dec]

/-- The opcode of an instruction. -/
def Instr.op : Instr → Op
  | .hlt => .hlt
  | .load _ _ => .load
  | .add _ _ _ => .add
  | .sub _ _ _ => .sub
  | .mul _ _ _ => .mul
  | .div _ _ _ => .div
  | .jmp _ => .jmp
  | .jmpf _ => .jmpf
  | .jmpb _ => .jmpb
  | .eq _ _ => .eq
  | .neq _ _ => .neq
  | .gt _ _ => .gt
  | .lt _ _ => .lt
  | .gtq _ _ => .gtq
  | .ltq _ _ => .ltq
  | .jeq _ => .jeq
  | .jneq _ => .jneq
  | .alloc _ => .alloc
  | .inc _ => .inc
  | .dec _ => .dec

/-- The register operand bytes of an instruction, in encoded order (R22, R74). -/
def Instr.regOperands : Instr → List Byte
  | .hlt => []
  | .load r _ => [r]
  | .add ra rb rd | .sub ra rb rd | .mul ra rb rd | .div ra rb rd => [ra, rb, rd]
  | .jmp r | .jmpf r | .jmpb r | .jeq r | .jneq r => [r]
  | .eq ra rb | .neq ra rb | .gt ra rb | .lt ra rb | .gtq ra rb | .ltq ra rb => [ra, rb]
  | .alloc r | .inc r | .dec r => [r]

end Sys2Proof
end

