-- ==== Sys2Proof/Config.lean ====
section
/-! DEFINITION. What an implementation fixes (spec/00_scope.md R8): the opcode map as an argument of the encoder,
the decoder and the step, and the two size limits as constants without a body. -/

namespace Sys2Proof

/-- OPCODE_MAP: the byte of each opcode, an open parameter (R8, R74, R75; log entry 1). The map is
configuration, not state (R37). -/
abbrev OpcodeMap := Op → Byte

/-- The constraints R75 (a) to (c): injective, one byte for each opcode (it is a function), and 0xFF
mapped to no opcode. R75 (d) holds because no state holds the map. -/
structure OpcodeMap.Admissible (m : OpcodeMap) : Prop where
  injective : ∀ a b, m a = m b → a = b
  spares_ff : ∀ a, m a ≠ 0xFF

/-- HEAP_LIMIT, the largest heap length in bytes: open (R8, R182), so it has no value here (log entry 2). -/
opaque Config.heapLimit : Nat

/-- PROG_LIMIT with its bound 2^32 (R8): open, so it has no value here (log entry 3). -/
opaque Config.progLimitBounded : Fin (2 ^ 32 + 1)

/-- PROG_LIMIT, the largest program length in bytes (R8, R33; log entry 3). -/
def Config.progLimit : Nat := Config.progLimitBounded.val

end Sys2Proof
end

