-- ==== Sys2Proof/WellFormed.lean ====
section
/-! DEFINITION. Which instructions name only registers that exist (spec/10_state.md R21, spec/30_encoding.md R83). -/

namespace Sys2Proof

/-- A register operand byte names a register: its unsigned value is below 32 (R21). -/
abbrev Byte.IsRegister (b : Byte) : Prop := b.toNat < 32

/-- Every register operand of the instruction names a register. An instruction that is not well formed has
an encoding, and decodes, and always raises InvalidRegisterIndex (R83). Every immediate is legal (R83). -/
abbrev Instr.WellFormed (i : Instr) : Prop := ∀ b ∈ i.regOperands, Byte.IsRegister b

end Sys2Proof
end

