-- ==== Sys2Proof/Decode.lean ====
section
/-! DEFINITION. The instruction set definition (operand specs and the default opcode map), the decoder, total on
any bytes, and the encoder beside it, both driven by that one table (spec/30_encoding.md R70 to R85). -/

namespace Sys2Proof

/-- The ordered operand kinds of each opcode (R74, column 'operands'). -/
@[reducible] def Op.spec : Op → List OperandKind
  | .hlt => []
  | .load => [.register, .immediate]
  | .add | .sub | .mul | .div => [.register, .register, .register]
  | .jmp | .jmpf | .jmpb | .jeq | .jneq => [.register]
  | .eq | .neq | .gt | .lt | .gtq | .ltq => [.register, .register]
  | .alloc | .inc | .dec => [.register]

/-- The number of bytes of an operand (R72). -/
def OperandKind.width : OperandKind → Nat
  | .register => 1
  | .immediate => 2

/-- The number of operand bytes of an operand spec (R14). -/
def operandBytes (ks : List OperandKind) : Nat := (ks.map OperandKind.width).sum

/-- encoded_size(op): the opcode byte and the operand bytes (R14, R72). -/
def Op.size (op : Op) : Nat := 1 + operandBytes op.spec

/-- The length of an instruction in bytes, decided by its opcode alone (R84). -/
def Instr.size (i : Instr) : Nat := i.op.size

/-- The default OPCODE_MAP of R74: 0x00 to 0x13 in the order of the table (D1; log entry 1). -/
def OpcodeMap.default : OpcodeMap
  | .hlt => 0x00
  | .load => 0x01
  | .add => 0x02
  | .sub => 0x03
  | .mul => 0x04
  | .div => 0x05
  | .jmp => 0x06
  | .jmpf => 0x07
  | .jmpb => 0x08
  | .eq => 0x09
  | .neq => 0x0A
  | .gt => 0x0B
  | .lt => 0x0C
  | .gtq => 0x0D
  | .ltq => 0x0E
  | .jeq => 0x0F
  | .jneq => 0x10
  | .alloc => 0x11
  | .inc => 0x12
  | .dec => 0x13

/-- opcode_from_byte (R76): total, `none` standing for ILLEGAL (R77). -/
def opcodeOfByte (m : OpcodeMap) (b : Byte) : Option Op := Op.all.find? fun op => m op == b

/-- The operand values of an operand spec, in encoded order: a byte for a register, 16 bits for an immediate. -/
@[reducible] def Operands : List OperandKind → Type
  | [] => Unit
  | .register :: ks => Byte × Operands ks
  | .immediate :: ks => Imm × Operands ks

/-- The operand values of an instruction, shaped by its opcode's spec. -/
def Instr.operands : (i : Instr) → Operands i.op.spec
  | .hlt => ()
  | .load r imm => (r, imm, ())
  | .add ra rb rd => (ra, rb, rd, ())
  | .sub ra rb rd => (ra, rb, rd, ())
  | .mul ra rb rd => (ra, rb, rd, ())
  | .div ra rb rd => (ra, rb, rd, ())
  | .jmp r => (r, ())
  | .jmpf r => (r, ())
  | .jmpb r => (r, ())
  | .eq ra rb => (ra, rb, ())
  | .neq ra rb => (ra, rb, ())
  | .gt ra rb => (ra, rb, ())
  | .lt ra rb => (ra, rb, ())
  | .gtq ra rb => (ra, rb, ())
  | .ltq ra rb => (ra, rb, ())
  | .jeq r => (r, ())
  | .jneq r => (r, ())
  | .alloc r => (r, ())
  | .inc r => (r, ())
  | .dec r => (r, ())

/-- The instruction of an opcode and its operand values (R118: one operation for each opcode). -/
def Instr.build : (op : Op) → Operands op.spec → Instr
  | .hlt, _ => .hlt
  | .load, o => .load o.1 o.2.1
  | .add, o => .add o.1 o.2.1 o.2.2.1
  | .sub, o => .sub o.1 o.2.1 o.2.2.1
  | .mul, o => .mul o.1 o.2.1 o.2.2.1
  | .div, o => .div o.1 o.2.1 o.2.2.1
  | .jmp, o => .jmp o.1
  | .jmpf, o => .jmpf o.1
  | .jmpb, o => .jmpb o.1
  | .eq, o => .eq o.1 o.2.1
  | .neq, o => .neq o.1 o.2.1
  | .gt, o => .gt o.1 o.2.1
  | .lt, o => .lt o.1 o.2.1
  | .gtq, o => .gtq o.1 o.2.1
  | .ltq, o => .ltq o.1 o.2.1
  | .jeq, o => .jeq o.1
  | .jneq, o => .jneq o.1
  | .alloc, o => .alloc o.1
  | .inc, o => .inc o.1
  | .dec, o => .dec o.1

/-- The bytes of an immediate, high byte first (R53, R80). -/
def immBytes (v : Imm) : List Byte := [v.extractLsb' 8 8, v.extractLsb' 0 8]

/-- The immediate of two bytes, the first of them the high one (R53, R80). -/
def immOfBytes (hi lo : Byte) : Imm := hi ++ lo

/-- Reads the operand bytes of a spec in declared order (R79, R80, R115); `none` where bytes are missing. -/
def parseOperands : (ks : List OperandKind) → List Byte → Option (Operands ks × List Byte)
  | [], bs => some ((), bs)
  | .register :: ks, b :: bs => (parseOperands ks bs).map fun p => ((b, p.1), p.2)
  | .immediate :: ks, hi :: lo :: bs => (parseOperands ks bs).map fun p => ((immOfBytes hi lo, p.1), p.2)
  | .register :: _, [] => none
  | .immediate :: _, [] => none
  | .immediate :: _, [_] => none

/-- The operand bytes of a spec's values in declared order (R70). -/
def encodeOperands : (ks : List OperandKind) → Operands ks → List Byte
  | [], _ => []
  | .register :: ks, o => o.1 :: encodeOperands ks o.2
  | .immediate :: ks, o => immBytes o.1 ++ encodeOperands ks o.2

/-- Why bytes are no instruction. -/
inductive DecodeError where
  /-- There is no byte at all. -/
  | noByte
  /-- The opcode byte is unmapped: ILLEGAL (R76, R82). -/
  | illegalOpcode (b : Byte)
  /-- The opcode's operand bytes are not all there (R83). -/
  | underrun (op : Op)
  deriving DecidableEq, Repr

/-- Decodes the instruction at the head of a byte sequence under a map, and gives the bytes after it
(R70, R76, R79, R80, R84). -/
def decodeWith (m : OpcodeMap) : List Byte → Except DecodeError (Instr × List Byte)
  | [] => .error .noByte
  | b :: bs =>
    match opcodeOfByte m b with
    | none => .error (.illegalOpcode b)
    | some op =>
      match parseOperands op.spec bs with
      | none => .error (.underrun op)
      | some (o, rest) => .ok (Instr.build op o, rest)

/-- Encodes an instruction under a map: the opcode byte, then the operand bytes in declared order (R70). -/
def encodeWith (m : OpcodeMap) (i : Instr) : List Byte := m i.op :: encodeOperands i.op.spec i.operands

/-- A program is its instructions' encodings one after the other, with nothing between (R71). -/
def encodeProgramWith (m : OpcodeMap) (is : List Instr) : List Byte := is.flatMap (encodeWith m)

/-- The decoder at the default map. -/
def decode (bs : List Byte) : Except DecodeError (Instr × List Byte) := decodeWith OpcodeMap.default bs

/-- The encoder at the default map. -/
def encode (i : Instr) : List Byte := encodeWith OpcodeMap.default i

/-- The longest instruction has four bytes (R7, R84). -/
def longestInstr : Nat := 4

/-- The bytes of a numbered instruction word of the opcode table, its bits at or above `nbits` zero: bit 0 is
the least significant bit of the first byte, and the next byte's bits count on from it. -/
def tableBytes (nbits w : Nat) : List Byte :=
  (List.range longestInstr).map fun k => BitVec.ofNat 8 (w % 2 ^ nbits / 2 ^ (8 * k))

/-- The instruction the decoder reads from a numbered instruction word of the opcode table. -/
def decodeTableWord (nbits w : Nat) : Option Instr :=
  match decode (tableBytes nbits w) with
  | .ok (i, _) => some i
  | .error _ => none

end Sys2Proof
end

