-- ==== Sys2Proof/Machine/State.lean ====
section
/-! DEFINITION. The machine's state, plain data (spec/10_state.md R20 to R37), the state after reset (R35), and the
reasons a step of the model may stop. -/

namespace Sys2Proof.Machine

open Sys2Proof

/-- The fault codes of spec/60_exceptions.md R190 (the source's VmFault and the spec's two). Raising one is a
NEXT state that holds the code in `FAULT` (R193), never an outcome `fault` of the model. -/
inductive VmFault where
  | illegalOpcode
  | invalidRegisterIndex
  | divisionByZero
  | heapGrowthOverflow
  | programUnderrun
  | divisionOverflow
  | jumpTargetOutOfRange
  deriving DecidableEq, Repr

/-- Why a step returned Halted (spec/40_fetch_decode.md R110). -/
inductive HaltReason where
  | hlt
  | endOfProgram
  | fault (f : VmFault)
  deriving DecidableEq, Repr

/-- What a step returns (R110). -/
inductive StepResult where
  | continue
  | halted (r : HaltReason)
  deriving DecidableEq, Repr

/-- A byte sequence of a given length: PROG or HEAP (R33, R34). `cells` lists the bytes that are not zero, at
strictly rising offsets below `len`; an offset below `len` that is not listed holds 0 (log entry 6). -/
structure Memory where
  len : Nat
  cells : List Host.Cell
  deriving DecidableEq, Repr

/-- The machine state: what R35 lists, and `out`. -/
structure State where
  /-- `x[0]` to `x[31]` (R20). -/
  regs : Vector Word 32
  /-- The program counter (R26). -/
  pc : Offset
  /-- FLAG, the comparison flag: `true` is 1 (R31). -/
  flag : Bool
  /-- REM, the remainder register (R32). -/
  rem : Word
  /-- PROG, the program buffer (R33). -/
  prog : Memory
  /-- HEAP, the heap buffer (R34). -/
  heap : Memory
  /-- FAULT, the fault latch (R30). -/
  fault : Option VmFault
  /-- The MODEL's own field: what the last step returned, an output that the spec does not store
  (R37; log entry 4). No step reads it. -/
  out : Option StepResult
  deriving DecidableEq, Repr

/-- The machine right after reset (R35, R220): every register 0, both buffers empty, no fault; no step has
run yet (log entries 4 and 11). -/
def State.reset : State where
  regs := Vector.replicate 32 0
  pc := 0
  flag := false
  rem := 0
  prog := ⟨0, []⟩
  heap := ⟨0, []⟩
  fault := none
  out := none

/-- The reasons the MODEL stops with a fault. The engine's own faults are not among them: they are next
states (R193). -/
inductive Fault where
  /-- A fetch at an offset of PROG that does not exist (R11: MemRead is defined only below the length). Raised by
  `stepWith` and by `algorithmStep`, both of which check the length first, so no step reaches it. Safe
  (log entry 25). -/
  | noSuchOffset (a : Nat)
  deriving DecidableEq, Repr

/-- The reasons the MODEL refuses. -/
inductive Refusal where
  /-- An instruction without a meaning: raised by no arm, since every instruction has its meaning. Safe. -/
  | notModelled (mnemonic : String)
  /-- The host's `load` of more bytes than PROG_LIMIT: the command is refused and changes nothing (R40).
  Raised by `loadWith`. Safe. -/
  | loadTooLong
  /-- The host's `append_byte` at PROG_LIMIT: the command is refused and changes nothing (R40). Raised by
  `appendWith`. Safe. -/
  | appendAtLimit
  deriving DecidableEq, Repr

end Sys2Proof.Machine
end

