-- ==== Sys2Proof/Machine/Ops.lean ====
section
/-! DEFINITION. The named operations over memory, registers and the step's result, and RAISING A FAULT
(spec/60_exceptions.md R193). -/

namespace Sys2Proof.Machine

open Sys2Proof

/-- What an offset below the length that no cell lists holds (log entry 6). -/
def unlistedByte : Byte := 0

/-- The byte a list of cells gives an address. -/
def lookupCell (a : Nat) : List Host.Cell → Byte
  | [] => unlistedByte
  | c :: cs => if c.1 = a then c.2 else lookupCell a cs

/-- The byte at an offset; `none` at or past the length, where no byte exists (R11, R50). -/
def Memory.read (m : Memory) (a : Nat) : Option Byte :=
  if a < m.len then some (lookupCell a m.cells) else none

/-- The bytes from an offset on, at most `n` of them, as far as they exist. -/
def Memory.slice (m : Memory) (a : Nat) : Nat → List Byte
  | 0 => []
  | n + 1 =>
    match m.read a with
    | none => []
    | some b => b :: m.slice (a + 1) n

/-- The cells are at strictly rising addresses in `[lo, hi)` and none holds what an unlisted address reads as. -/
def cellsOk (lo hi : Nat) : List Host.Cell → Bool
  | [] => true
  | c :: cs => decide (lo ≤ c.1) && decide (c.1 < hi) && decide (c.2 ≠ unlistedByte) && cellsOk (c.1 + 1) hi cs

/-- The canonical form: equal byte sequences are equal data. -/
def Memory.wf (m : Memory) : Bool := cellsOk 0 m.len m.cells

/-- The empty byte sequence. -/
def Memory.empty : Memory := ⟨0, []⟩

/-- A byte put at the end (R40, `append_byte`). -/
def Memory.push (m : Memory) (b : Byte) : Memory where
  len := m.len + 1
  cells := if b = unlistedByte then m.cells else m.cells ++ [(m.len, b)]

/-- `n` zero bytes put at the end (R181). -/
def Memory.grow (m : Memory) (n : Nat) : Memory := { m with len := m.len + n }

/-- The byte sequence of a list (R40, `load`). -/
def Memory.ofBytes (bs : List Byte) : Memory := bs.foldl Memory.push Memory.empty

/-- Cells with one address's byte replaced, in canonical form: a byte that an unlisted address reads as is
not listed. -/
def setCell (a : Nat) (b : Byte) : List Host.Cell → List Host.Cell
  | [] => if b = unlistedByte then [] else [(a, b)]
  | c :: cs =>
    if a < c.1 then (if b = unlistedByte then c :: cs else (a, b) :: c :: cs)
    else if a = c.1 then (if b = unlistedByte then cs else (a, b) :: cs)
    else c :: setCell a b cs

/-- One byte written at an offset, the sequence lengthened by zero bytes to reach it. No instruction and no host
command does this (R52, R62): it only places a word to fetch (`placeWord`, log entry 21). -/
def Memory.write (m : Memory) (a : Nat) (b : Byte) : Memory where
  len := max m.len (a + 1)
  cells := setCell a b m.cells

/-- The bytes `bs` stand in the sequence from offset `a` on. -/
def Memory.Holds (m : Memory) (a : Nat) (bs : List Byte) : Prop := ∀ k, k < bs.length → m.read (a + k) = bs[k]?

/-- Bytes written from an offset on. -/
def Memory.writeAll (m : Memory) (a : Nat) : List Byte → Memory
  | [] => m
  | b :: bs => (m.write a b).writeAll (a + 1) bs

/-- x[i] (R11). -/
def State.x (s : State) (r : RegIndex) : Word := s.regs[r.val]

/-- x[i] <- v (R11). -/
def State.setX (s : State) (r : RegIndex) (v : Word) : State := { s with regs := s.regs.set r.val v }

/-- FLAG <- b (R31). -/
def State.setFlag (s : State) (b : Bool) : State := { s with flag := b }

/-- REM <- v (R32). -/
def State.setRem (s : State) (v : Word) : State := { s with rem := v }

/-- pc <- target (R11). -/
def State.setPc (s : State) (t : Offset) : State := { s with pc := t }

/-- pc moved over `n` fetched bytes (R27). -/
def State.advance (s : State) (n : Nat) : State := s.setPc (s.pc + BitVec.ofNat 64 n)

/-- HEAP <- h (R181). -/
def State.setHeap (s : State) (h : Memory) : State := { s with heap := h }

/-- The state with the step's result as its output (R110; log entry 4). -/
def State.answer (s : State) (r : StepResult) : State := { s with out := some r }

/-- FAULT <- F, with the result Halted(Fault(F)); nothing else is written (R193). -/
def State.raised (s : State) (f : VmFault) : State :=
  { s with fault := some f, out := some (.halted (.fault f)) }

/-- `return Continue`. -/
def complete (s : State) : Host.Outcome State Fault Refusal := .next (s.answer .continue)

/-- `return Halted(r)`. -/
def halt (r : HaltReason) (s : State) : Host.Outcome State Fault Refusal := .next (s.answer (.halted r))

/-- `raise F` (R193): the one way a fault is taken. pc stays where the step had got to. No control is
transferred and no instruction returns (R196, R197); only reset and the host's `load` clear the latch (R30;
`clearLatch`, used by `loadWith` in Machine/HostPort.lean). -/
def raise (f : VmFault) (s : State) : Host.Outcome State Fault Refusal := .next (s.raised f)

/-- FAULT <- None, the host's way out of a fault (R30, R197). -/
def State.clearLatch (s : State) : State := { s with fault := none }

/-- The next state of an outcome, if it is one. -/
def nextState? : Host.Outcome State Fault Refusal → Option State
  | .next s => some s
  | .fault _ => none
  | .refused _ => none

end Sys2Proof.Machine
end

