-- ==== Sys2Proof/Machine/Operands.lean ====
section
/-! DEFINITION. Readings of a word, narrowing, the division primitives (spec/00_scope.md R9, R10), and the
register-file arbiter's index check (spec/10_state.md R21, R22). -/

namespace Sys2Proof.Machine

open Sys2Proof

/-- sval(v): the two's complement value (R9). -/
def sval (v : Word) : Int := v.toInt

/-- wrap32(n): the 32-bit vector whose unsigned value is n mod 2^32 (R9). -/
def wrap32 (n : Int) : Word := BitVec.ofInt 32 n

/-- sext_32(imm16): the sign extension of the immediate (R80). -/
def sext32 (v : Imm) : Word := v.signExtend 32

/-- tdiv(a, b): the quotient rounded toward zero (R10; the spec's decision D4, log entry 9). -/
def tdiv (a b : Int) : Int := a.tdiv b

/-- trem(a, b) = a - b * tdiv(a, b): 0 or of the sign of a (R10; log entry 9). -/
def trem (a b : Int) : Int := a - b * tdiv a b

/-- The index check of one register operand byte: 0 to 31 name a register (R21). -/
def regIndex? (b : Byte) : Option RegIndex := if h : b.toNat < 32 then some ⟨b.toNat, h⟩ else none

/-- The operand byte of a register. -/
def regByte (r : RegIndex) : Byte := BitVec.ofNat 8 r.val

/-- The arbiter: passes the register an operand byte names on to the operation, or raises
InvalidRegisterIndex (R22, R116). An operation nests one `withReg` for each register operand, in encoded
order, around all it does, so it reads and writes no register when one index is bad. -/
def withReg (b : Byte) (s : State) (use : RegIndex → Host.Outcome State Fault Refusal) :
    Host.Outcome State Fault Refusal :=
  match regIndex? b with
  | some r => use r
  | none => raise .invalidRegisterIndex s

/-- The arbiter over the two operands of form RR, in encoded order. -/
def withRegs2 (ra rb : Byte) (s : State) (use : RegIndex → RegIndex → Host.Outcome State Fault Refusal) :
    Host.Outcome State Fault Refusal :=
  withReg ra s fun a => withReg rb s fun b => use a b

/-- The arbiter over the three operands of form RRR, in encoded order. -/
def withRegs3 (ra rb rd : Byte) (s : State)
    (use : RegIndex → RegIndex → RegIndex → Host.Outcome State Fault Refusal) :
    Host.Outcome State Fault Refusal :=
  withReg ra s fun a => withReg rb s fun b => withReg rd s fun d => use a b d

end Sys2Proof.Machine
end

