-- ==== Sys2Proof/Machine/Flags.lean ====
section
/-! DEFINITION. The comparison relations behind FLAG (spec/42_compare.md R150 to R156) and the comparison template. -/

namespace Sys2Proof.Machine

open Sys2Proof

/-- a == b (R151). -/
def relEq (a b : Int) : Bool := decide (a = b)

/-- a != b (R152). -/
def relNeq (a b : Int) : Bool := decide (a ≠ b)

/-- a > b (R153). -/
def relGt (a b : Int) : Bool := decide (b < a)

/-- a < b (R154). -/
def relLt (a b : Int) : Bool := decide (a < b)

/-- a >= b (R155; the spec's decision D2, log entry 7). -/
def relGtq (a b : Int) : Bool := decide (b ≤ a)

/-- a <= b (R156; the spec's decision D2, log entry 7). -/
def relLtq (a b : Int) : Bool := decide (a ≤ b)

/-- The comparison template (R150): FLAG <- (a rel b) ? 1 : 0, over signed readings; no register is written. -/
def compareWith (rel : Int → Int → Bool) (ra rb : Byte) (s : State) : Host.Outcome State Fault Refusal :=
  withRegs2 ra rb s fun a b => complete (s.setFlag (rel (sval (s.x a)) (sval (s.x b))))

end Sys2Proof.Machine
end

