-- ==== Sys2Proof/Machine/Compare.lean ====
section
/-! DEFINITION. The comparisons: EQ, NEQ, GT, LT, GTQ, LTQ (spec/42_compare.md). -/

namespace Sys2Proof.Machine

open Sys2Proof

/-- EQ (R151). -/
def execEq (ra rb : Byte) (s : State) : Host.Outcome State Fault Refusal := compareWith relEq ra rb s

/-- NEQ (R152). -/
def execNeq (ra rb : Byte) (s : State) : Host.Outcome State Fault Refusal := compareWith relNeq ra rb s

/-- GT, signed (R153). -/
def execGt (ra rb : Byte) (s : State) : Host.Outcome State Fault Refusal := compareWith relGt ra rb s

/-- LT, signed (R154). -/
def execLt (ra rb : Byte) (s : State) : Host.Outcome State Fault Refusal := compareWith relLt ra rb s

/-- GTQ, signed (R155; log entry 7). -/
def execGtq (ra rb : Byte) (s : State) : Host.Outcome State Fault Refusal := compareWith relGtq ra rb s

/-- LTQ, signed (R156; log entry 7). -/
def execLtq (ra rb : Byte) (s : State) : Host.Outcome State Fault Refusal := compareWith relLtq ra rb s

end Sys2Proof.Machine
end

