-- ==== Sys2Proof/Machine/Control.lean ====
section
/-! DEFINITION. Control transfer: HLT, JMP, JMPF, JMPB, JEQ, JNEQ (spec/43_control.md). The step has already moved pc
past the instruction, so `s.pc` is start + 2 in a jump (R161; log entry 14). -/

namespace Sys2Proof.Machine

open Sys2Proof

/-- A taken jump to an exact integer target: a negative one raises JumpTargetOutOfRange and leaves pc, any other
is written to pc, past the end of the program too (R162, R163; log entry 13). -/
def jumpTo (t : Int) (s : State) : Host.Outcome State Fault Refusal :=
  if t < 0 then raise .jumpTargetOutOfRange s else complete (s.setPc (BitVec.ofInt 64 t))

/-- The template of the conditional jumps: an absolute jump where FLAG has the wanted value; else nothing, and the
target is not computed (R163, R167, R168). -/
def jumpIf (want : Bool) (r : Byte) (s : State) : Host.Outcome State Fault Refusal :=
  withReg r s fun i => if s.flag = want then jumpTo (sval (s.x i)) s else complete s

/-- HLT: the step returns Halted(Hlt); no state keeps it (R122, R160; log entry 16). -/
def execHlt (s : State) : Host.Outcome State Fault Refusal := halt .hlt s

/-- JMP: pc <- x[r] (R164). -/
def execJmp (r : Byte) (s : State) : Host.Outcome State Fault Refusal :=
  withReg r s fun i => jumpTo (sval (s.x i)) s

/-- JMPF: pc <- pc + x[r] (R165). -/
def execJmpf (r : Byte) (s : State) : Host.Outcome State Fault Refusal :=
  withReg r s fun i => jumpTo ((s.pc.toNat : Int) + sval (s.x i)) s

/-- JMPB: pc <- pc - x[r] (R166). -/
def execJmpb (r : Byte) (s : State) : Host.Outcome State Fault Refusal :=
  withReg r s fun i => jumpTo ((s.pc.toNat : Int) - sval (s.x i)) s

/-- JEQ: jumps where FLAG is 1 (R167). -/
def execJeq (r : Byte) (s : State) : Host.Outcome State Fault Refusal := jumpIf true r s

/-- JNEQ: jumps where FLAG is 0 (R168). -/
def execJneq (r : Byte) (s : State) : Host.Outcome State Fault Refusal := jumpIf false r s

end Sys2Proof.Machine
end

