-- ==== Sys2Proof/Machine/Data.lean ====
section
/-! DEFINITION. The data and arithmetic instructions: LOAD, ADD, SUB, MUL, DIV, INC, DEC (spec/41_data_alu.md). -/

namespace Sys2Proof.Machine

open Sys2Proof

/-- The arithmetic template (R131) for an operation that cannot fault: x[rd] <- wrap32(f(a, b)), both operands read
before the write (R24). -/
def arithWith (f : Int → Int → Int) (ra rb rd : Byte) (s : State) : Host.Outcome State Fault Refusal :=
  withRegs3 ra rb rd s fun a b d => complete (s.setX d (wrap32 (f (sval (s.x a)) (sval (s.x b)))))

/-- The template of INC and DEC: x[r] <- wrap32(x[r] + k) (R138, R139). -/
def stepReg (k : Int) (r : Byte) (s : State) : Host.Outcome State Fault Refusal :=
  withReg r s fun i => complete (s.setX i (wrap32 (sval (s.x i) + k)))

/-- Signed division: the quotient and the remainder, or the fault of R135 (D5 for the second; log entry 10). -/
def divide (a b : Int) : Except VmFault (Word × Word) :=
  if b = 0 then .error .divisionByZero
  else if a = -2 ^ 31 ∧ b = -1 then .error .divisionOverflow
  else .ok (wrap32 (tdiv a b), wrap32 (trem a b))

/-- LOAD: x[r] <- sext_32(imm16) (R130). -/
def execLoad (r : Byte) (imm : Imm) (s : State) : Host.Outcome State Fault Refusal :=
  withReg r s fun i => complete (s.setX i (sext32 imm))

/-- ADD: x[rd] <- wrap32(a + b) (R132; wrapping is the spec's decision D3, log entry 8). -/
def execAdd (ra rb rd : Byte) (s : State) : Host.Outcome State Fault Refusal :=
  arithWith (fun a b => a + b) ra rb rd s

/-- SUB: x[rd] <- wrap32(a - b) (R133; log entry 8). -/
def execSub (ra rb rd : Byte) (s : State) : Host.Outcome State Fault Refusal :=
  arithWith (fun a b => a - b) ra rb rd s

/-- MUL: x[rd] <- wrap32(a * b), the low 32 bits (R134; log entry 8). -/
def execMul (ra rb rd : Byte) (s : State) : Host.Outcome State Fault Refusal :=
  arithWith (fun a b => a * b) ra rb rd s

/-- DIV: x[rd] <- the quotient, REM <- the remainder; on a fault neither is written (R135, R136). -/
def execDiv (ra rb rd : Byte) (s : State) : Host.Outcome State Fault Refusal :=
  withRegs3 ra rb rd s fun a b d =>
    match divide (sval (s.x a)) (sval (s.x b)) with
    | .error f => raise f s
    | .ok (q, r) => complete ((s.setX d q).setRem r)

/-- INC: x[r] <- wrap32(x[r] + 1) (R138). -/
def execInc (r : Byte) (s : State) : Host.Outcome State Fault Refusal := stepReg 1 r s

/-- DEC: x[r] <- wrap32(x[r] - 1) (R139). -/
def execDec (r : Byte) (s : State) : Host.Outcome State Fault Refusal := stepReg (-1) r s

end Sys2Proof.Machine
end

