-- ==== Sys2Proof/Machine/Heap.lean ====
section
/-! DEFINITION. Heap growth: ALLOC (spec/44_heap.md). -/

namespace Sys2Proof.Machine

open Sys2Proof

/-- Growth by `n` bytes under a limit: a negative count, then a length past the limit, raises
HeapGrowthOverflow; else `n` zero bytes are put at the end in one change (R56, R181, R182; log entries 2, 19). -/
def growHeap (limit : Nat) (n : Int) (s : State) : Host.Outcome State Fault Refusal :=
  if n < 0 then raise .heapGrowthOverflow s
  else if s.heap.len + n.toNat ≤ limit then complete (s.setHeap (s.heap.grow n.toNat))
  else raise .heapGrowthOverflow s

/-- ALLOC under a heap limit given as an argument (R182). -/
def allocWith (limit : Nat) (r : Byte) (s : State) : Host.Outcome State Fault Refusal :=
  withReg r s fun i => growHeap limit (sval (s.x i)) s

/-- ALLOC (R181), at the configuration's HEAP_LIMIT. -/
def execAlloc (r : Byte) (s : State) : Host.Outcome State Fault Refusal := allocWith Config.heapLimit r s

end Sys2Proof.Machine
end

