-- ==== Sys2Proof/Machine/Dispatch.lean ====
section
/-! DEFINITION. The dispatch of spec/40_fetch_decode.md R118: one operation for each opcode, no wildcard arm. -/

namespace Sys2Proof.Machine

open Sys2Proof

def exec (i : Instr) (s : State) : Host.Outcome State Fault Refusal :=
  match i with
  | .hlt => Sys2Proof.Machine.execHlt s
  | .load r imm => Sys2Proof.Machine.execLoad r imm s
  | .add ra rb rd => Sys2Proof.Machine.execAdd ra rb rd s
  | .sub ra rb rd => Sys2Proof.Machine.execSub ra rb rd s
  | .mul ra rb rd => Sys2Proof.Machine.execMul ra rb rd s
  | .div ra rb rd => Sys2Proof.Machine.execDiv ra rb rd s
  | .jmp r => Sys2Proof.Machine.execJmp r s
  | .jmpf r => Sys2Proof.Machine.execJmpf r s
  | .jmpb r => Sys2Proof.Machine.execJmpb r s
  | .eq ra rb => Sys2Proof.Machine.execEq ra rb s
  | .neq ra rb => Sys2Proof.Machine.execNeq ra rb s
  | .gt ra rb => Sys2Proof.Machine.execGt ra rb s
  | .lt ra rb => Sys2Proof.Machine.execLt ra rb s
  | .gtq ra rb => Sys2Proof.Machine.execGtq ra rb s
  | .ltq ra rb => Sys2Proof.Machine.execLtq ra rb s
  | .jeq r => Sys2Proof.Machine.execJeq r s
  | .jneq r => Sys2Proof.Machine.execJneq r s
  | .alloc r => Sys2Proof.Machine.execAlloc r s
  | .inc r => Sys2Proof.Machine.execInc r s
  | .dec r => Sys2Proof.Machine.execDec r s

end Sys2Proof.Machine
end

