-- ==== Sys2Proof/Machine/Fetch.lean ====
section
/-! DEFINITION. Fetch, decode and the whole step (spec/40_fetch_decode.md R110 to R123), under an opcode map given as
an argument. The byte-by-byte algorithm of R111 stands beside it in Machine/Algorithm.lean. -/

namespace Sys2Proof.Machine

open Sys2Proof

/-- The bytes an instruction at pc can have: those at pc and after it, as far as PROG goes. Reading them has no
side effect (R55). -/
def fetchBytes (s : State) : List Byte := s.prog.slice s.pc.toNat longestInstr

/-- One step under an opcode map (R111), its checks in the order of R194: the latch (R117), the end of the
program (R112), the opcode byte (R113), the operand bytes (R114); then the instruction runs with pc past its last
byte (R115), the arbiter's check (R116) first. -/
def stepWith (m : OpcodeMap) (s : State) : Host.Outcome State Fault Refusal :=
  match s.fault with
  | some f => halt (.fault f) s
  | none =>
    if s.prog.len ≤ s.pc.toNat then halt .endOfProgram s
    else
      match decodeWith m (fetchBytes s) with
      | .error .noByte => .fault (.noSuchOffset s.pc.toNat)
      | .error (.illegalOpcode _) => raise .illegalOpcode (s.advance 1)
      | .error (.underrun _) => raise .programUnderrun (s.advance 1)
      | .ok (i, _) => exec i (s.advance i.size)

/-- The state with a numbered instruction word of the opcode table at pc, zero bytes above it, and no fault
latched, so that the next step runs it: it stands for the host's `load` (R223; log entry 21). -/
def placeWord (s : State) (nbits w : Nat) : State :=
  { s.clearLatch with prog := s.prog.writeAll s.pc.toNat (tableBytes nbits w) }

end Sys2Proof.Machine
end

