-- ==== Sys2Proof/Machine/Step.lean ====
section
/-! DEFINITION. The machine's step at the default opcode map, and the placing of a word to fetch; both only call
Machine/Fetch.lean. -/

namespace Sys2Proof.Machine

open Sys2Proof

/-- One step at the default OPCODE_MAP of R74 (log entry 1). -/
def step (s : State) : Host.Outcome State Fault Refusal := stepWith OpcodeMap.default s

/-- The state whose next step fetches and runs the instruction word. -/
def State.withFetchWord (s : State) (nbits w : Nat) : State := placeWord s nbits w

end Sys2Proof.Machine
end

