-- ==== Sys2Proof/Machine/Algorithm.lean ====
section
/-! DEFINITION. The step algorithm of spec/40_fetch_decode.md R111 line by line: one byte fetched at a time, pc moved
after each. `stepWith` is the machine's step; that the two agree is an obligation. -/

namespace Sys2Proof.Machine

open Sys2Proof

/-- R115: the operand fetch, in declared order, pc moved over each byte as it is read. The result is the operand
values and the pc reached; `error` names an offset that does not exist. -/
def fetchOperands (prog : Memory) : (ks : List OperandKind) → Offset → Except Nat (Operands ks × Offset)
  | [], pc => .ok ((), pc)
  | .register :: ks, pc =>
    match prog.read pc.toNat with
    | none => .error pc.toNat
    | some b =>
      match fetchOperands prog ks (pc + 1) with
      | .error a => .error a
      | .ok (o, pc') => .ok ((b, o), pc')
  | .immediate :: ks, pc =>
    match prog.read pc.toNat, prog.read (pc.toNat + 1) with
    | some hi, some lo =>
      match fetchOperands prog ks (pc + 2) with
      | .error a => .error a
      | .ok (o, pc') => .ok ((immOfBytes hi lo, o), pc')
    | _, _ => .error pc.toNat

/-- R116: the register operands of a spec's values, in encoded order. -/
def registerOperands : (ks : List OperandKind) → Operands ks → List Byte
  | [], _ => []
  | .register :: ks, o => o.1 :: registerOperands ks o.2
  | .immediate :: ks, o => registerOperands ks o.2

/-- R111, one line of the algorithm to each branch. -/
def algorithmStep (m : OpcodeMap) (s : State) : Host.Outcome State Fault Refusal :=
  match s.fault with
  | some f => halt (.fault f) s
  | none =>
    if s.pc.toNat ≥ s.prog.len then halt .endOfProgram s
    else
      match s.prog.read s.pc.toNat with
      | none => .fault (.noSuchOffset s.pc.toNat)
      | some b =>
        let s1 := s.setPc (s.pc + 1)
        match opcodeOfByte m b with
        | none => raise .illegalOpcode s1
        | some op =>
          if s1.pc.toNat + (op.size - 1) > s1.prog.len then raise .programUnderrun s1
          else
            match fetchOperands s1.prog op.spec s1.pc with
            | .error a => .fault (.noSuchOffset a)
            | .ok (o, pc') =>
              let s2 := s1.setPc pc'
              if (registerOperands op.spec o).any fun r => decide (32 ≤ r.toNat) then raise .invalidRegisterIndex s2
              else exec (Instr.build op o) s2

end Sys2Proof.Machine
end

