-- ==== Sys2Proof/Machine/Assembler.lean ====
section
/-! DEFINITION. The toolchain's source syntax (spec/30_encoding.md R90 to R99): the assembler and the disassembler. It is
software outside the hardware (spec/00_scope.md R6); no step reads it (log entry 23). -/

namespace Sys2Proof.Machine

open Sys2Proof

/-- A source text, a line or a token: its characters. -/
abbrev Text := List Char

/-- The line terminator, LF alone (R90). -/
def lineEnd : Char := '\n'

/-- White space between tokens: a space or a tab (R93). -/
def isBlank (c : Char) : Bool := c == ' ' || c == '\t'

/-- The mnemonics, in upper case (R94). -/
def mnemonic : Op → Text
  | .hlt => ['H', 'L', 'T']
  | .load => ['L', 'O', 'A', 'D']
  | .add => ['A', 'D', 'D']
  | .sub => ['S', 'U', 'B']
  | .mul => ['M', 'U', 'L']
  | .div => ['D', 'I', 'V']
  | .jmp => ['J', 'M', 'P']
  | .jmpf => ['J', 'M', 'P', 'F']
  | .jmpb => ['J', 'M', 'P', 'B']
  | .eq => ['E', 'Q']
  | .neq => ['N', 'E', 'Q']
  | .gt => ['G', 'T']
  | .lt => ['L', 'T']
  | .gtq => ['G', 'T', 'Q']
  | .ltq => ['L', 'T', 'Q']
  | .jeq => ['J', 'E', 'Q']
  | .jneq => ['J', 'N', 'E', 'Q']
  | .alloc => ['A', 'L', 'L', 'O', 'C']
  | .inc => ['I', 'N', 'C']
  | .dec => ['D', 'E', 'C']

/-- The assembler's faults, each with the line it was found on, counted from 0; two name the opcode whose operand
shape was expected (R96). -/
inductive AssembleFault where
  | unknownMnemonic (line : Nat)
  | operandCountMismatch (line : Nat) (expected : Op)
  | operandKindMismatch (line : Nat) (expected : Op)
  | malformedOperandLiteral (line : Nat)
  | missingLineTerminator (line : Nat)
  deriving DecidableEq, Repr

/-- The opcode a word names (R94). -/
def opcodeOfMnemonic (w : Text) : Option Op := Op.all.find? fun op => mnemonic op == w

/-- The value of a decimal digit. -/
def digit? (c : Char) : Option Nat := if '0' ≤ c ∧ c ≤ '9' then some (c.toNat - 48) else none

/-- The number that decimal digits go on to write, after the number `acc`. -/
def digitsFrom (acc : Nat) : Text → Option Nat
  | [] => some acc
  | c :: cs =>
    match digit? c with
    | none => none
    | some d => digitsFrom (acc * 10 + d) cs

/-- A non-empty run of decimal digits as a number. -/
def natLiteral (w : Text) : Option Nat := if w = [] then none else digitsFrom 0 w

/-- An operand token. -/
inductive Token where
  | register (b : Byte)
  | immediate (v : Imm)
  deriving DecidableEq, Repr

/-- `$N` with N from 0 to 255 (R91). -/
def registerToken (digits : Text) : Option Token :=
  match natLiteral digits with
  | none => none
  | some n => if n < 256 then some (.register (BitVec.ofNat 8 n)) else none

/-- A decimal integer of the signed 32-bit range, its low 16 bits kept (R92). -/
def immediateOf (v : Int) : Option Token :=
  if -2 ^ 31 ≤ v ∧ v < 2 ^ 31 then some (.immediate (BitVec.ofInt 16 v)) else none

/-- Reads an operand token; `none` is a malformed one (R91, R92, R96). -/
def readToken : Text → Option Token
  | '$' :: digits => registerToken digits
  | '-' :: digits =>
    match natLiteral digits with
    | none => none
    | some n => immediateOf (-(n : Int))
  | w =>
    match natLiteral w with
    | none => none
    | some n => immediateOf n

/-- The text before the first blank and the text from it on. -/
def firstWord : Text → Text × Text
  | [] => ([], [])
  | c :: cs => if isBlank c then ([], c :: cs) else (c :: (firstWord cs).1, (firstWord cs).2)

/-- The tokens of a text: its longest runs without a blank, `cur` being the run read so far (R93). -/
def tokensFrom (cur : Text) : Text → List Text
  | [] => if cur = [] then [] else [cur]
  | c :: cs =>
    if isBlank c then (if cur = [] then tokensFrom [] cs else cur :: tokensFrom [] cs)
    else tokensFrom (cur ++ [c]) cs

/-- Reads as many tokens as a spec has operands, from left to right: in each, malformed before of the wrong
kind (R96, R97). `operandCountMismatch` cannot come out where the counts agree. -/
def readOperands (line : Nat) (op : Op) : (ks : List OperandKind) → List Text → Except AssembleFault (Operands ks)
  | [], [] => .ok ()
  | [], _ :: _ => .error (.operandCountMismatch line op)
  | _ :: _, [] => .error (.operandCountMismatch line op)
  | .register :: ks, w :: ws =>
    match readToken w with
    | none => .error (.malformedOperandLiteral line)
    | some (.immediate _) => .error (.operandKindMismatch line op)
    | some (.register b) =>
      match readOperands line op ks ws with
      | .error e => .error e
      | .ok o => .ok (b, o)
  | .immediate :: ks, w :: ws =>
    match readToken w with
    | none => .error (.malformedOperandLiteral line)
    | some (.register _) => .error (.operandKindMismatch line op)
    | some (.immediate v) =>
      match readOperands line op ks ws with
      | .error e => .error e
      | .ok o => .ok (v, o)

/-- Assembles one line: the mnemonic, then the operand count, then the operands (R95, R97). -/
def assembleLine (line : Nat) (text : Text) : Except AssembleFault Instr :=
  match opcodeOfMnemonic (firstWord text).1 with
  | none => .error (.unknownMnemonic line)
  | some op =>
    let ws := tokensFrom [] (firstWord text).2
    if ws.length ≠ op.spec.length then .error (.operandCountMismatch line op)
    else
      match readOperands line op op.spec ws with
      | .error e => .error e
      | .ok o => .ok (Instr.build op o)

/-- Assembles line after line, `cur` being the current line so far; the first fault ends it, and characters after
the last terminator are a fault of their own (R90, R97, R98). -/
def assembleFrom (line : Nat) (cur : Text) : Text → Except AssembleFault (List Instr)
  | [] => if cur = [] then .ok [] else .error (.missingLineTerminator line)
  | c :: cs =>
    if c = lineEnd then
      match assembleLine line cur with
      | .error e => .error e
      | .ok i =>
        match assembleFrom (line + 1) [] cs with
        | .error e => .error e
        | .ok is => .ok (i :: is)
    else assembleFrom line (cur ++ [c]) cs

/-- The assembler: a source text's instructions, or its first fault (R90 to R99). -/
def assemble (text : Text) : Except AssembleFault (List Instr) := assembleFrom 0 [] text

/-- The assembler's bytes under an opcode map (R71). -/
def assembleBytes (m : OpcodeMap) (text : Text) : Except AssembleFault (List Byte) :=
  match assemble text with
  | .error e => .error e
  | .ok is => .ok (encodeProgramWith m is)

/-- The character of a decimal digit. -/
def digitChar (d : Nat) : Char := Char.ofNat (48 + d)

/-- A number of at most `fuel` digits in decimal, without leading zeros. -/
def decimal : Nat → Nat → Text
  | 0, _ => []
  | fuel + 1, n => if n < 10 then [digitChar n] else decimal fuel (n / 10) ++ [digitChar (n % 10)]

/-- A register operand as `$N` (R99). -/
def showRegister (b : Byte) : Text := '$' :: decimal 3 b.toNat

/-- An immediate as its signed decimal value (R99). -/
def showImmediate (v : Imm) : Text :=
  if v.toInt < 0 then '-' :: decimal 5 v.toInt.natAbs else decimal 5 v.toInt.natAbs

/-- The operands of a spec, each after one space (R95, R99). -/
def showOperands : (ks : List OperandKind) → Operands ks → Text
  | [], _ => []
  | .register :: ks, o => ' ' :: showRegister o.1 ++ showOperands ks o.2
  | .immediate :: ks, o => ' ' :: showImmediate o.1 ++ showOperands ks o.2

/-- The disassembler's line for an instruction, without its terminator (R99). -/
def showInstr (i : Instr) : Text := mnemonic i.op ++ showOperands i.op.spec i.operands

/-- The listing of a program: each line ended by its terminator (R90, R99). -/
def listing (is : List Instr) : Text := is.flatMap fun i => showInstr i ++ [lineEnd]

end Sys2Proof.Machine
end

