-- ==== Sys2Proof/Machine/Effects.lean ====
section
/-! DEFINITION. The table of spec/10_state.md R23 and spec/60_exceptions.md R191: what each instruction may read, write
and raise. Statements speak of it; no meaning uses it. -/

namespace Sys2Proof.Machine

open Sys2Proof

/-- R23, column 'GPR reads'. -/
def readSet : Instr → List Byte
  | .hlt => []
  | .load _ _ => []
  | .add ra rb _ | .sub ra rb _ | .mul ra rb _ | .div ra rb _ => [ra, rb]
  | .jmp r | .jmpf r | .jmpb r | .jeq r | .jneq r => [r]
  | .eq ra rb | .neq ra rb | .gt ra rb | .lt ra rb | .gtq ra rb | .ltq ra rb => [ra, rb]
  | .alloc r | .inc r | .dec r => [r]

/-- R23, column 'GPR write'. -/
def writeSet : Instr → List Byte
  | .hlt => []
  | .load r _ => [r]
  | .add _ _ rd | .sub _ _ rd | .mul _ _ rd | .div _ _ rd => [rd]
  | .jmp _ | .jmpf _ | .jmpb _ | .jeq _ | .jneq _ => []
  | .eq _ _ | .neq _ _ | .gt _ _ | .lt _ _ | .gtq _ _ | .ltq _ _ => []
  | .alloc _ => []
  | .inc r | .dec r => [r]

/-- The comparisons, which alone write FLAG (R31). -/
def isComparison : Op → Bool
  | .eq | .neq | .gt | .lt | .gtq | .ltq => true
  | .hlt | .load | .add | .sub | .mul | .div | .jmp | .jmpf | .jmpb | .jeq | .jneq | .alloc | .inc | .dec => false

/-- The conditional jumps, which alone read FLAG (R31). -/
def isConditional : Op → Bool
  | .jeq | .jneq => true
  | .hlt | .load | .add | .sub | .mul | .div | .jmp | .jmpf | .jmpb | .eq | .neq | .gt | .lt | .gtq | .ltq
  | .alloc | .inc | .dec => false

/-- The five jumps, which alone write pc beyond the fetch (R23, R27). -/
def isJump : Op → Bool
  | .jmp | .jmpf | .jmpb | .jeq | .jneq => true
  | .hlt | .load | .add | .sub | .mul | .div | .eq | .neq | .gt | .lt | .gtq | .ltq | .alloc | .inc | .dec => false

/-- R191: the faults of the operation itself. -/
def operationFaults : Op → List VmFault
  | .div => [.divisionByZero, .divisionOverflow]
  | .alloc => [.heapGrowthOverflow]
  | .jmp | .jmpf | .jmpb | .jeq | .jneq => [.jumpTargetOutOfRange]
  | .hlt | .load | .add | .sub | .mul | .eq | .neq | .gt | .lt | .gtq | .ltq | .inc | .dec => []

end Sys2Proof.Machine
end

