-- ==== Sys2Proof/Machine/HostPort.lean ====
section
/-! DEFINITION. The host interface (spec/10_state.md R36, R40 to R42): the commands between steps, the run, and the
reads. The limit on the program's length is an argument of each command that it bounds (R8; log entry 3). -/

namespace Sys2Proof.Machine

open Sys2Proof

/-- `load(bytes)` under a limit: PROG <- bytes, pc <- 0, FAULT <- None, the rest kept; refused past the limit
(R40, R222; log entry 20). -/
def loadWith (limit : Nat) (bytes : List Byte) (s : State) : Host.Outcome State Fault Refusal :=
  if bytes.length ≤ limit then .next { (s.setPc 0).clearLatch with prog := Memory.ofBytes bytes }
  else .refused .loadTooLong

/-- `append_byte(b)` under a limit: PROG <- PROG ++ [b], the rest kept, the latch too; refused at the limit
(R40; log entry 20). -/
def appendWith (limit : Nat) (b : Byte) (s : State) : Host.Outcome State Fault Refusal :=
  if s.prog.len < limit then .next { s with prog := s.prog.push b }
  else .refused .appendAtLimit

/-- A step returned Halted (R110). -/
def StepResult.isHalted : StepResult → Bool
  | .continue => false
  | .halted _ => true

/-- The last step returned Halted. -/
def State.isHalted (s : State) : Bool :=
  match s.out with
  | some r => r.isHalted
  | none => false

/-- `run()` watched for at most `fuel` steps: it steps until a step returns Halted and answers the state then;
`none` says that it has not returned yet (R120, R226; log entry 22). -/
def runFor (m : OpcodeMap) : Nat → State → Option State
  | 0, _ => none
  | fuel + 1, s =>
    match stepWith m s with
    | .next t => if t.isHalted then some t else runFor m fuel t
    | .fault _ => none
    | .refused _ => none

/-- `n` calls of `step()` one after the other, whatever each returns; `none` where the model stops. -/
def stepTimes (m : OpcodeMap) : Nat → State → Option State
  | 0, s => some s
  | n + 1, s =>
    match stepWith m s with
    | .next t => stepTimes m n t
    | .fault _ => none
    | .refused _ => none

/-- The commands that end on their own (R40); `run` is `runFor`. -/
inductive Command where
  | load (bytes : List Byte)
  | appendByte (b : Byte)
  | step
  deriving DecidableEq, Repr

/-- One command, to its end (R42), under a PROG_LIMIT and an opcode map. -/
def commandWith (limit : Nat) (m : OpcodeMap) : Command → State → Host.Outcome State Fault Refusal
  | .load bytes, s => loadWith limit bytes s
  | .appendByte b, s => appendWith limit b s
  | .step, s => stepWith m s

/-- One command at the configuration's PROG_LIMIT. -/
def command (m : OpcodeMap) : Command → State → Host.Outcome State Fault Refusal := commandWith Config.progLimit m

/-- Commands in their one total order (R59); a refused one changes nothing (R40). -/
def session (m : OpcodeMap) : List Command → State → State
  | [], s => s
  | c :: cs, s => session m cs ((nextState? (command m c s)).getD s)

/-- The number of a fault code (R190; the spec's decision D23, log entry 24). -/
def VmFault.code : VmFault → BitVec 3
  | .illegalOpcode => 1
  | .invalidRegisterIndex => 2
  | .divisionByZero => 3
  | .heapGrowthOverflow => 4
  | .programUnderrun => 5
  | .divisionOverflow => 6
  | .jumpTargetOutOfRange => 7

/-- STATUS[2:0], the read-out of the latch: 0 for none (R36). -/
def State.status (s : State) : BitVec 3 :=
  match s.fault with
  | none => 0
  | some f => f.code

/-- What the host can read (R36, R41). -/
inductive HostRead where
  | reg (r : RegIndex)
  | heapLen
  | flag
  | rem
  | progByte (a : Nat)
  | pc
  | heapByte (a : Nat)
  | status
  deriving DecidableEq, Repr

/-- A read's value as an unsigned number; `none` for a byte that does not exist. It has no effect on the state
(R41). -/
def hostRead : HostRead → State → Option Nat
  | .reg r, s => some (s.x r).toNat
  | .heapLen, s => some s.heap.len
  | .flag, s => some s.flag.toNat
  | .rem, s => some s.rem.toNat
  | .progByte a, s => (s.prog.read a).map BitVec.toNat
  | .pc, s => some s.pc.toNat
  | .heapByte a, s => (s.heap.read a).map BitVec.toNat
  | .status, s => some s.status.toNat

end Sys2Proof.Machine
end

