-- ==== Sys2Proof/Safety.lean ====
section
/-! DEFINITION. What a safe state is: the invariant of every state the engine can be in, in the spec's terms. -/

namespace Sys2Proof

open Sys2Proof.Machine

/-- What holds of the engine at every moment, under a heap limit given as an argument (R182). -/
structure Inv (heapLimit : Nat) (s : State) : Prop where
  /-- PROG is in canonical form (log entry 6). -/
  prog_canonical : s.prog.wf = true
  /-- HEAP is in canonical form (log entry 6). -/
  heap_canonical : s.heap.wf = true
  /-- len(PROG) <= 2^32, the bound of PROG_LIMIT (R8, R33). -/
  prog_bounded : s.prog.len ≤ 2 ^ 32
  /-- No pc is above the largest jump target (R29). -/
  pc_bounded : s.pc.toNat ≤ 2 ^ 32 + 2 ^ 31
  /-- len(HEAP) <= HEAP_LIMIT (R34, R180). -/
  heap_bounded : s.heap.len ≤ heapLimit
  /-- Every byte of HEAP is 0 (R34). -/
  heap_zero : ∀ a b, s.heap.read a = some b → b = 0
  /-- A latched fault is the one the last step returned (R30, R193). -/
  latch_answered : ∀ f, s.fault = some f → s.out = some (.halted (.fault f))

/-- The engine can run on: no fault is latched (R117). -/
abbrev Running (s : State) : Prop := s.fault = none

end Sys2Proof
end

