-- ==== Sys2Proof/Certificates/Slice0/Obligations.lean ====
section
/-! DEFINITION. The statements for the provers. Where a statement rests on a decision that the spec marks as its own
(92_eei_decisions.md D<n>) or on a choice of the model, its docstring says so and names the log entry. -/

open Sys2Proof Sys2Proof.Machine

/-! ## Encoding -/

/-- R70 ("must exactly invert this"), for every admissible map, every instruction, ill formed ones too, and whatever
bytes follow. -/
def Obligations.DecodeInvertsEncode : Prop :=
  ∀ m : OpcodeMap, m.Admissible → ∀ (i : Instr) (rest : List Byte),
    decodeWith m (encodeWith m i ++ rest) = .ok (i, rest)

/-- R70, R71, R84: what decodes is the encoding of what it decodes to, so each instruction has one encoding and no
operand bit is dropped. -/
def Obligations.DecodedBytesAreTheEncoding : Prop :=
  ∀ (m : OpcodeMap) (bs : List Byte) (i : Instr) (rest : List Byte),
    decodeWith m bs = .ok (i, rest) → bs = encodeWith m i ++ rest

/-- R76, with R75 (c): the lookup answers an opcode exactly at that opcode's byte, so ILLEGAL at every other byte and
at 0xFF under every admissible map. -/
def Obligations.OpcodeLookupInvertsTheMap : Prop :=
  ∀ m : OpcodeMap, m.Admissible →
    (∀ b op, opcodeOfByte m b = some op ↔ m op = b) ∧ opcodeOfByte m 0xFF = none

/-- R74, R75, R82: the default map (D1; log entry 1) meets the constraints, and its illegal bytes are 0x14 to 0xFF. -/
def Obligations.DefaultMapIsAdmissible : Prop :=
  OpcodeMap.default.Admissible ∧ ∀ b : Byte, opcodeOfByte OpcodeMap.default b = none ↔ 0x14 ≤ b.toNat

/-- R73, R74: where every byte of every instruction stands, under every map. The immediate's high byte is first. -/
def Obligations.EncodingLayouts : Prop :=
  ∀ (m : OpcodeMap) (ra rb rd : Byte) (hi lo : Byte),
    encodeWith m .hlt = [m .hlt] ∧
    encodeWith m (.load ra (hi ++ lo)) = [m .load, ra, hi, lo] ∧
    encodeWith m (.add ra rb rd) = [m .add, ra, rb, rd] ∧
    encodeWith m (.sub ra rb rd) = [m .sub, ra, rb, rd] ∧
    encodeWith m (.mul ra rb rd) = [m .mul, ra, rb, rd] ∧
    encodeWith m (.div ra rb rd) = [m .div, ra, rb, rd] ∧
    encodeWith m (.jmp ra) = [m .jmp, ra] ∧
    encodeWith m (.jmpf ra) = [m .jmpf, ra] ∧
    encodeWith m (.jmpb ra) = [m .jmpb, ra] ∧
    encodeWith m (.eq ra rb) = [m .eq, ra, rb] ∧
    encodeWith m (.neq ra rb) = [m .neq, ra, rb] ∧
    encodeWith m (.gt ra rb) = [m .gt, ra, rb] ∧
    encodeWith m (.lt ra rb) = [m .lt, ra, rb] ∧
    encodeWith m (.gtq ra rb) = [m .gtq, ra, rb] ∧
    encodeWith m (.ltq ra rb) = [m .ltq, ra, rb] ∧
    encodeWith m (.jeq ra) = [m .jeq, ra] ∧
    encodeWith m (.jneq ra) = [m .jneq, ra] ∧
    encodeWith m (.alloc ra) = [m .alloc, ra] ∧
    encodeWith m (.inc ra) = [m .inc, ra] ∧
    encodeWith m (.dec ra) = [m .dec, ra]

/-- Words written out from R73 and R74 (95_test_vectors.md W2, W3, V5.1, V6, V7), at the default map (D1). -/
def Obligations.SpecWordsDecode : Prop :=
  decode [0x01, 0x00, 0x01, 0xF4] = .ok (.load 0 500, []) ∧
  decode [0x02, 0x00, 0x01, 0x02] = .ok (.add 0 1 2, []) ∧
  decode [0x12, 0x05] = .ok (.inc 5, []) ∧
  decode [0x09, 0x00, 0x01] = .ok (.eq 0 1, []) ∧
  decode [0x0F, 0x02] = .ok (.jeq 2, []) ∧
  decode [0x11, 0x00] = .ok (.alloc 0, []) ∧
  decode [0x00] = .ok (.hlt, []) ∧
  decode [0x14] = .error (.illegalOpcode 0x14) ∧
  decode [0x05, 0x00, 0x01] = .error (.underrun .div)

/-- R90 to R99: the assembler gives back every program from its listing. The lexical details are the spec's decision
D22 (log entry 23). -/
def Obligations.AssemblerReadsTheListing : Prop := ∀ is : List Instr, assemble (listing is) = .ok is

/-! ## Reset -/

/-- R35, R220: every piece of the spec's state after reset. FLAG, REM and the empty buffers are the spec's decision D6,
the latch its D11 (log entries 5 and 11). -/
def Obligations.ResetState : Prop :=
  (∀ r : RegIndex, State.reset.x r = 0) ∧ State.reset.pc = 0 ∧ State.reset.flag = false ∧ State.reset.rem = 0 ∧
  State.reset.prog.len = 0 ∧ State.reset.heap.len = 0 ∧ State.reset.fault = none

/-! ## The data and arithmetic instructions -/

/-- R130: the encoding of LOAD, and its effect: the register holds the immediate's signed value, and nothing else is
written. Its faults: InvalidRegisterIndex for an index of 32 or more, ProgramUnderrun where fewer than 3 bytes follow
the opcode, and no other. -/
def Obligations.LoadWritesTheImmediate : Prop :=
  (∀ (m : OpcodeMap) (r hi lo : Byte), encodeWith m (.load r (hi ++ lo)) = [m .load, r, hi, lo]) ∧
  (∀ (s : State) (r : RegIndex) (imm : Imm), ∃ v : Word, v.toInt = imm.toInt ∧
    exec (.load (regByte r) imm) s = .next { s with regs := s.regs.set r.val v, out := some .continue }) ∧
  (∀ (s : State) (r : Byte) (imm : Imm), 32 ≤ r.toNat →
    ∃ t, exec (.load r imm) s = .next t ∧ t.out = some (.halted (.fault .invalidRegisterIndex)) ∧ t.regs = s.regs) ∧
  ∀ (m : OpcodeMap) (s : State), m.Admissible → s.fault = none → s.prog.read s.pc.toNat = some (m .load) →
    s.prog.len < s.pc.toNat + 4 →
    ∃ t, stepWith m s = .next t ∧ t.out = some (.halted (.fault .programUnderrun)) ∧ t.regs = s.regs

/-- R132, R133, R134, R137: the low 32 bits of the exact result. Wrapping is the spec's decision D3 (log entry 8). -/
def Obligations.AddSubMulWrap : Prop :=
  ∀ (s : State) (a b d : RegIndex),
    exec (.add (regByte a) (regByte b) (regByte d)) s =
      .next { s with regs := s.regs.set d.val (wrap32 (sval (s.x a) + sval (s.x b))), out := some .continue } ∧
    exec (.sub (regByte a) (regByte b) (regByte d)) s =
      .next { s with regs := s.regs.set d.val (wrap32 (sval (s.x a) - sval (s.x b))), out := some .continue } ∧
    exec (.mul (regByte a) (regByte b) (regByte d)) s =
      .next { s with regs := s.regs.set d.val (wrap32 (sval (s.x a) * sval (s.x b))), out := some .continue }

/-- R140: ADD, SUB, MUL, INC and DEC give the same bits when the registers are read as unsigned numbers. Wrapping of
ADD, SUB and MUL is D3 (log entry 8). -/
def Obligations.ArithmeticIsSignAgnostic : Prop :=
  ∀ (s : State) (a b d : RegIndex),
    (∃ t, exec (.add (regByte a) (regByte b) (regByte d)) s = .next t ∧
      (t.x d).toNat = ((s.x a).toNat + (s.x b).toNat) % 2 ^ 32) ∧
    (∃ t, exec (.sub (regByte a) (regByte b) (regByte d)) s = .next t ∧
      (t.x d).toNat = ((s.x a).toNat + (2 ^ 32 - (s.x b).toNat)) % 2 ^ 32) ∧
    (∃ t, exec (.mul (regByte a) (regByte b) (regByte d)) s = .next t ∧
      (t.x d).toNat = ((s.x a).toNat * (s.x b).toNat) % 2 ^ 32) ∧
    (∃ t, exec (.inc (regByte d)) s = .next t ∧ (t.x d).toNat = ((s.x d).toNat + 1) % 2 ^ 32) ∧
    (∃ t, exec (.dec (regByte d)) s = .next t ∧ (t.x d).toNat = ((s.x d).toNat + (2 ^ 32 - 1)) % 2 ^ 32)

/-- R135, R136: a division that does not fault writes the quotient and the remainder, both of the values before it. The
rounding is the spec's decision D4 (log entry 9), the excluded overflow its D5 (log entry 10). -/
def Obligations.DivWritesQuotientAndRemainder : Prop :=
  ∀ (s : State) (a b d : RegIndex), sval (s.x b) ≠ 0 → ¬(sval (s.x a) = -2 ^ 31 ∧ sval (s.x b) = -1) →
    exec (.div (regByte a) (regByte b) (regByte d)) s =
      .next { s with regs := s.regs.set d.val (wrap32 ((sval (s.x a)).tdiv (sval (s.x b)))),
                     rem := wrap32 ((sval (s.x a)).tmod (sval (s.x b))),
                     out := some .continue }

/-- R135: the two faults of DIV leave every register and REM; DivisionOverflow is the spec's decision D5 (log entry
10), the latch its D11 (log entry 5). -/
def Obligations.DivFaults : Prop :=
  ∀ (s : State) (a b d : RegIndex),
    (sval (s.x b) = 0 → exec (.div (regByte a) (regByte b) (regByte d)) s =
      .next { s with fault := some .divisionByZero, out := some (.halted (.fault .divisionByZero)) }) ∧
    (sval (s.x a) = -2 ^ 31 ∧ sval (s.x b) = -1 → exec (.div (regByte a) (regByte b) (regByte d)) s =
      .next { s with fault := some .divisionOverflow, out := some (.halted (.fault .divisionOverflow)) })

/-- R140's law of DIV, on the values the registers hold afterwards: dividend = divisor * quotient + remainder, the
remainder smaller than the divisor and 0 or of the dividend's sign; the quotient always fits. The rounding is D4 (log
entry 9). -/
def Obligations.DivisionLaw : Prop :=
  ∀ (s : State) (a b d : RegIndex), sval (s.x b) ≠ 0 → ¬(sval (s.x a) = -2 ^ 31 ∧ sval (s.x b) = -1) →
    ∃ t, exec (.div (regByte a) (regByte b) (regByte d)) s = .next t ∧
      sval (s.x a) = sval (s.x b) * sval (t.x d) + sval t.rem ∧
      |sval t.rem| < |sval (s.x b)| ∧
      (sval t.rem = 0 ∨ (0 < sval t.rem ↔ 0 < sval (s.x a)))

/-- R138, R139: the encodings of INC and DEC and their effect, wrapping at the ends of the range; nothing else is
written. Their faults are the step's: InvalidRegisterIndex and ProgramUnderrun. -/
def Obligations.IncDecWrap : Prop :=
  (∀ (m : OpcodeMap) (r : Byte), encodeWith m (.inc r) = [m .inc, r] ∧ encodeWith m (.dec r) = [m .dec, r]) ∧
  (∀ (s : State) (r : RegIndex),
    exec (.inc (regByte r)) s =
      .next { s with regs := s.regs.set r.val (wrap32 (sval (s.x r) + 1)), out := some .continue } ∧
    exec (.dec (regByte r)) s =
      .next { s with regs := s.regs.set r.val (wrap32 (sval (s.x r) - 1)), out := some .continue }) ∧
  (∀ (s : State) (r : Byte), 32 ≤ r.toNat → ∀ i ∈ [Instr.inc r, Instr.dec r],
    ∃ t, exec i s = .next t ∧ t.out = some (.halted (.fault .invalidRegisterIndex)) ∧ t.regs = s.regs) ∧
  ∀ (m : OpcodeMap) (s : State), m.Admissible → s.fault = none → s.prog.len < s.pc.toNat + 2 →
    ∀ op ∈ [Op.inc, Op.dec], s.prog.read s.pc.toNat = some (m op) →
    ∃ t, stepWith m s = .next t ∧ t.out = some (.halted (.fault .programUnderrun)) ∧ t.regs = s.regs

/-! ## The comparisons -/

/-- R151 to R154: the encodings of EQ, NEQ, GT and LT and their effect: FLAG is 1 where the signed values stand in the
relation and 0 where they do not; nothing else is written. Their faults are the step's: InvalidRegisterIndex and
ProgramUnderrun. -/
def Obligations.EqNeqGtLtSetTheFlag : Prop :=
  (∀ (m : OpcodeMap) (ra rb : Byte),
    encodeWith m (.eq ra rb) = [m .eq, ra, rb] ∧ encodeWith m (.neq ra rb) = [m .neq, ra, rb] ∧
    encodeWith m (.gt ra rb) = [m .gt, ra, rb] ∧ encodeWith m (.lt ra rb) = [m .lt, ra, rb]) ∧
  (∀ (s : State) (a b : RegIndex),
    exec (.eq (regByte a) (regByte b)) s =
      .next { s with flag := decide ((s.x a).toInt = (s.x b).toInt), out := some .continue } ∧
    exec (.neq (regByte a) (regByte b)) s =
      .next { s with flag := decide ((s.x a).toInt ≠ (s.x b).toInt), out := some .continue } ∧
    exec (.gt (regByte a) (regByte b)) s =
      .next { s with flag := decide ((s.x a).toInt > (s.x b).toInt), out := some .continue } ∧
    exec (.lt (regByte a) (regByte b)) s =
      .next { s with flag := decide ((s.x a).toInt < (s.x b).toInt), out := some .continue }) ∧
  (∀ (s : State) (ra rb : Byte), 32 ≤ ra.toNat ∨ 32 ≤ rb.toNat →
    ∀ i ∈ [Instr.eq ra rb, Instr.neq ra rb, Instr.gt ra rb, Instr.lt ra rb],
    ∃ t, exec i s = .next t ∧ t.out = some (.halted (.fault .invalidRegisterIndex)) ∧ t.flag = s.flag) ∧
  ∀ (m : OpcodeMap) (s : State), m.Admissible → s.fault = none → s.prog.len < s.pc.toNat + 3 →
    ∀ op ∈ [Op.eq, Op.neq, Op.gt, Op.lt], s.prog.read s.pc.toNat = some (m op) →
    ∃ t, stepWith m s = .next t ∧ t.out = some (.halted (.fault .programUnderrun)) ∧ t.flag = s.flag

/-- R155, R156: GTQ is signed >=, LTQ signed <=. The two relations are the spec's decision D2, from general knowledge
(log entry 7). -/
def Obligations.GtqLtqSetTheFlag : Prop :=
  ∀ (s : State) (a b : RegIndex),
    exec (.gtq (regByte a) (regByte b)) s =
      .next { s with flag := decide ((s.x a).toInt ≥ (s.x b).toInt), out := some .continue } ∧
    exec (.ltq (regByte a) (regByte b)) s =
      .next { s with flag := decide ((s.x a).toInt ≤ (s.x b).toInt), out := some .continue }

/-- R157: EQ and NEQ, GT and LTQ, LT and GTQ leave opposite flags, and GT on (a, b) the flag of LT on (b, a). The laws
of GTQ and LTQ rest on D2 (log entry 7). -/
def Obligations.ComparisonLaws : Prop :=
  ∀ (s : State) (a b : RegIndex),
    ∃ teq tneq tgt tlt tgtq tltq trev,
      exec (.eq (regByte a) (regByte b)) s = .next teq ∧ exec (.neq (regByte a) (regByte b)) s = .next tneq ∧
      exec (.gt (regByte a) (regByte b)) s = .next tgt ∧ exec (.lt (regByte a) (regByte b)) s = .next tlt ∧
      exec (.gtq (regByte a) (regByte b)) s = .next tgtq ∧ exec (.ltq (regByte a) (regByte b)) s = .next tltq ∧
      exec (.lt (regByte b) (regByte a)) s = .next trev ∧
      teq.flag = !tneq.flag ∧ tgt.flag = !tltq.flag ∧ tlt.flag = !tgtq.flag ∧ tgt.flag = trev.flag

/-! ## Control transfer -/

/-- R160: HLT's encoding; the operation returns Halted(Hlt) and writes nothing; a step that fetches it leaves pc one
past it. -/
def Obligations.HltHalts : Prop :=
  (∀ m : OpcodeMap, encodeWith m .hlt = [m .hlt]) ∧
  (∀ s : State, exec .hlt s = .next { s with out := some (.halted .hlt) }) ∧
  ∀ (m : OpcodeMap) (s : State), m.Admissible → s.fault = none → s.prog.read s.pc.toNat = some (m .hlt) →
    stepWith m s = .next { s with pc := s.pc + 1, out := some (.halted .hlt) }

/-- R162, R164: JMP to a target that is not negative: pc is exactly the register's value, past the end of the program
too, and nothing else is written. -/
def Obligations.JmpIsAbsolute : Prop :=
  ∀ (s : State) (r : RegIndex), 0 ≤ sval (s.x r) →
    ∃ t : Offset, (t.toNat : Int) = sval (s.x r) ∧
      exec (.jmp (regByte r)) s = .next { s with pc := t, out := some .continue }

/-- R161, R162, R165, R166: JMPF and JMPB add to and subtract from pc as it stands after the fetch, exactly: within the
range of R29 nothing wraps. The exact target is the spec's decision D8, the base its D9 (log entries 13 and 14). -/
def Obligations.JmpfJmpbAreRelative : Prop :=
  ∀ (s : State) (r : RegIndex), s.pc.toNat ≤ 2 ^ 33 →
    (0 ≤ (s.pc.toNat : Int) + sval (s.x r) →
      ∃ t : Offset, (t.toNat : Int) = s.pc.toNat + sval (s.x r) ∧
        exec (.jmpf (regByte r)) s = .next { s with pc := t, out := some .continue }) ∧
    (0 ≤ (s.pc.toNat : Int) - sval (s.x r) →
      ∃ t : Offset, (t.toNat : Int) = s.pc.toNat - sval (s.x r) ∧
        exec (.jmpb (regByte r)) s = .next { s with pc := t, out := some .continue })

/-- R167, R168: a conditional jump whose condition holds goes to the register's value; one whose condition does not
hold goes on, whatever the register holds. FLAG keeps its value. -/
def Obligations.JeqJneqFollowTheFlag : Prop :=
  ∀ (s : State) (r : RegIndex),
    (s.flag = true → 0 ≤ sval (s.x r) → ∃ t : Offset, (t.toNat : Int) = sval (s.x r) ∧
      exec (.jeq (regByte r)) s = .next { s with pc := t, out := some .continue }) ∧
    (s.flag = false → exec (.jeq (regByte r)) s = .next { s with out := some .continue }) ∧
    (s.flag = false → 0 ≤ sval (s.x r) → ∃ t : Offset, (t.toNat : Int) = sval (s.x r) ∧
      exec (.jneq (regByte r)) s = .next { s with pc := t, out := some .continue }) ∧
    (s.flag = true → exec (.jneq (regByte r)) s = .next { s with out := some .continue })

/-- R163: a taken jump to a negative target raises JumpTargetOutOfRange and leaves pc after the jump. The fault is the
spec's decision D8 (log entry 13). -/
def Obligations.NegativeTargetFaults : Prop :=
  ∀ (s : State) (r : RegIndex), let t : State :=
      { s with fault := some .jumpTargetOutOfRange, out := some (.halted (.fault .jumpTargetOutOfRange)) }
    (sval (s.x r) < 0 → exec (.jmp (regByte r)) s = .next t) ∧
    ((s.pc.toNat : Int) + sval (s.x r) < 0 → exec (.jmpf (regByte r)) s = .next t) ∧
    ((s.pc.toNat : Int) - sval (s.x r) < 0 → exec (.jmpb (regByte r)) s = .next t) ∧
    (s.flag = true → sval (s.x r) < 0 → exec (.jeq (regByte r)) s = .next t) ∧
    (s.flag = false → sval (s.x r) < 0 → exec (.jneq (regByte r)) s = .next t)

/-! ## The heap -/

/-- R181: ALLOC of a count that is not negative and fits HEAP_LIMIT lengthens the heap by it and writes nothing else. -/
def Obligations.AllocGrowsTheHeap : Prop :=
  ∀ (s : State) (r : RegIndex), 0 ≤ sval (s.x r) → s.heap.len + (sval (s.x r)).toNat ≤ Config.heapLimit →
    ∃ h : Memory, h.len = s.heap.len + (sval (s.x r)).toNat ∧
      exec (.alloc (regByte r)) s = .next { s with heap := h, out := some .continue }

/-- R181, R182, under every heap limit: the old bytes keep their place and value, the new ones are 0, and there are no
others. -/
def Obligations.AllocAppendsZeroBytes : Prop :=
  ∀ (limit : Nat) (s : State) (r : RegIndex), s.heap.wf = true → 0 ≤ sval (s.x r) →
    s.heap.len + (sval (s.x r)).toNat ≤ limit →
    ∃ t, allocWith limit (regByte r) s = .next t ∧ t.heap.wf = true ∧ ∀ a : Nat,
      t.heap.read a = if a < s.heap.len then s.heap.read a
        else if a < s.heap.len + (sval (s.x r)).toNat then some 0 else none

/-- R181: ALLOC of a negative count, or past HEAP_LIMIT, raises HeapGrowthOverflow and leaves the heap. The code for a
negative count is the spec's decision D15 (log entry 19). -/
def Obligations.AllocFaults : Prop :=
  ∀ (limit : Nat) (s : State) (r : RegIndex),
    sval (s.x r) < 0 ∨ (limit : Int) < s.heap.len + sval (s.x r) →
    allocWith limit (regByte r) s =
      .next { s with fault := some .heapGrowthOverflow, out := some (.halted (.fault .heapGrowthOverflow)) }

/-! ## What every instruction keeps -/

/-- R22, R83: an instruction with a register operand of 32 or more raises InvalidRegisterIndex and writes nothing else,
whichever operand it is and whether the operation would use it. The check of every operand is the spec's decision D14
(log entry 18). -/
def Obligations.BadRegisterFaults : Prop :=
  ∀ (i : Instr) (s : State), ¬i.WellFormed →
    exec i s = .next { s with fault := some .invalidRegisterIndex, out := some (.halted (.fault .invalidRegisterIndex)) }

/-- R119, R193: an instruction that raises a fault writes its code and the step's result and nothing else: no
register, FLAG, REM, HEAP, PROG or pc. The latch is D11 (log entry 5). -/
def Obligations.FaultsAreAllOrNothing : Prop :=
  ∀ (i : Instr) (s t : State) (f : VmFault), exec i s = .next t → t.out = some (.halted (.fault f)) →
    t = { s with fault := some f, out := some (.halted (.fault f)) }

/-- R191, R116: which faults an instruction can raise: those of its operation where its operands name registers, and
InvalidRegisterIndex where one does not. One that raises none leaves the latch. Two of the faults are D5 and D8. -/
def Obligations.FaultsByInstruction : Prop :=
  ∀ (i : Instr) (s t : State), exec i s = .next t →
    (∃ f, t.fault = some f ∧ t.out = some (.halted (.fault f)) ∧
      (if i.WellFormed then f ∈ operationFaults i.op else f = .invalidRegisterIndex)) ∨
    (t.fault = s.fault ∧ t.out = some (if i = .hlt then .halted .hlt else .continue))

/-- R23: a register that is not the instruction's destination keeps its value. -/
def Obligations.OnlyTheDestinationChanges : Prop :=
  ∀ (i : Instr) (s t : State), exec i s = .next t → ∀ r : RegIndex, regByte r ∉ writeSet i → t.x r = s.x r

/-- R31: FLAG is written by the comparisons alone, whatever it held, and read by JEQ and JNEQ alone: at any other
instruction, changing FLAG beforehand changes nothing but FLAG afterwards. The host can read it. -/
def Obligations.FlagIsWrittenByComparisonsReadByJumps : Prop :=
  (∀ (i : Instr) (s t : State), exec i s = .next t → isComparison i.op = false → t.flag = s.flag) ∧
  (∀ (i : Instr) (s t : State) (b : Bool), exec i s = .next t → isConditional i.op = false →
    ∃ t', exec i { s with flag := b } = .next t' ∧ t' = { t with flag := t'.flag }) ∧
  (∀ (i : Instr) (s t : State) (b : Bool), exec i s = .next t → isComparison i.op = true → i.WellFormed →
    exec i { s with flag := b } = .next t) ∧
  ∀ s : State, hostRead .flag s = some s.flag.toNat

/-- R32: REM is written by DIV alone and read by no instruction: another value beforehand changes nothing but REM
afterwards, and nothing at all at a DIV on registers that does not fault, which so always writes REM from values other
than its own. The host can read it. -/
def Obligations.RemIsWrittenByDivReadByNone : Prop :=
  (∀ (i : Instr) (s t : State), exec i s = .next t → i.op ≠ .div → t.rem = s.rem) ∧
  (∀ (i : Instr) (s t : State) (v : Word), exec i s = .next t →
    ∃ t', exec i { s with rem := v } = .next t' ∧ t' = { t with rem := t'.rem }) ∧
  (∀ (s t : State) (a b d : RegIndex) (v : Word), sval (s.x b) ≠ 0 →
    ¬(sval (s.x a) = -2 ^ 31 ∧ sval (s.x b) = -1) →
    exec (.div (regByte a) (regByte b) (regByte d)) s = .next t →
    exec (.div (regByte a) (regByte b) (regByte d)) { s with rem := v } = .next t) ∧
  ∀ s : State, hostRead .rem s = some s.rem.toNat

/-- R52: no instruction reads or writes a heap byte. A byte that exists stays; one that is new is 0; ALLOC alone adds
any; and other heap bytes beforehand change nothing but the heap bytes afterwards. The host can read them. -/
def Obligations.HeapBytesAreNeitherReadNorWritten : Prop :=
  (∀ (i : Instr) (s t : State), exec i s = .next t → s.heap.wf = true → ∀ a b, t.heap.read a = some b →
    if a < s.heap.len then s.heap.read a = some b else b = 0) ∧
  (∀ (i : Instr) (s t : State), exec i s = .next t → s.heap.len ≤ t.heap.len ∧ (i.op ≠ .alloc → t.heap = s.heap)) ∧
  (∀ (i : Instr) (s t : State) (h : Memory), exec i s = .next t → h.len = s.heap.len →
    ∃ t', exec i { s with heap := h } = .next t' ∧ t'.heap.len = t.heap.len ∧ t' = { t with heap := t'.heap }) ∧
  ∀ (s : State) (a : Nat), hostRead (.heapByte a) s = (s.heap.read a).map BitVec.toNat

/-- R62: no instruction and no step writes the program buffer: its length and every byte read as before. -/
def Obligations.ProgramIsNeverWritten : Prop :=
  (∀ (i : Instr) (s t : State), exec i s = .next t → t.prog.len = s.prog.len ∧ ∀ a, t.prog.read a = s.prog.read a) ∧
  ∀ (m : OpcodeMap) (s t : State), stepWith m s = .next t →
    t.prog.len = s.prog.len ∧ ∀ a, t.prog.read a = s.prog.read a

/-- R23, R27: only a jump writes pc beyond the fetch. -/
def Obligations.OnlyJumpsWritePc : Prop :=
  ∀ (i : Instr) (s t : State), exec i s = .next t → isJump i.op = false → t.pc = s.pc

/-- R23: an instruction reads no register outside its read set: two states that agree on those registers and on all
else step to states that agree on all but the registers, and each register that was written holds the same value. -/
def Obligations.OnlyTheReadSetMatters : Prop :=
  ∀ (i : Instr) (s t : State) (regs : Vector Word 32), exec i s = .next t →
    (∀ r : RegIndex, regByte r ∈ readSet i → regs[r.val] = s.x r) →
    ∃ t', exec i { s with regs := regs } = .next t' ∧ t' = { t with regs := t'.regs } ∧
      ∀ r : RegIndex, t'.x r = t.x r ∨ (t'.x r = regs[r.val] ∧ t.x r = s.x r)

/-! ## The step -/

/-- R111, R115, R118: where the bytes at pc decode to an instruction, or are its encoding, the step is that instruction
with pc moved past its bytes and nothing else done, for `step` and under every admissible map. -/
def Obligations.StepRunsTheDecodedInstruction : Prop :=
  (∀ (s : State) (i : Instr) (rest : List Byte), s.fault = none → s.pc.toNat < s.prog.len →
    decode (fetchBytes s) = .ok (i, rest) → step s = exec i { s with pc := s.pc + BitVec.ofNat 64 i.size }) ∧
  ∀ (m : OpcodeMap) (s : State) (i : Instr), m.Admissible → s.fault = none →
    s.prog.Holds s.pc.toNat (encodeWith m i) →
    stepWith m s = exec i { s with pc := s.pc + BitVec.ofNat 64 i.size }

/-- R112: at or past the end of the program the step returns Halted(EndOfProgram) and changes no state. -/
def Obligations.EndOfProgramHalts : Prop :=
  ∀ (m : OpcodeMap) (s : State), s.fault = none → s.prog.len ≤ s.pc.toNat →
    stepWith m s = .next { s with out := some (.halted .endOfProgram) }

/-- R113: a byte at pc that decodes to ILLEGAL raises IllegalOpcode with pc advanced by exactly 1. -/
def Obligations.IllegalOpcodeFaults : Prop :=
  ∀ (m : OpcodeMap) (s : State) (b : Byte), s.fault = none → s.prog.read s.pc.toNat = some b →
    opcodeOfByte m b = none →
    stepWith m s = .next { s with pc := s.pc + 1, fault := some .illegalOpcode,
                                  out := some (.halted (.fault .illegalOpcode)) }

/-- R114: operand bytes that run past the end raise ProgramUnderrun with pc advanced by 1. The check of all the bytes at
once, and pc after it, are the spec's decision D10 (log entry 15). -/
def Obligations.UnderrunFaults : Prop :=
  ∀ (m : OpcodeMap) (s : State) (op : Op), m.Admissible → s.fault = none →
    s.prog.read s.pc.toNat = some (m op) → s.prog.len < s.pc.toNat + op.size →
    stepWith m s = .next { s with pc := s.pc + 1, fault := some .programUnderrun,
                                  out := some (.halted (.fault .programUnderrun)) }

/-- R117: while a fault is latched, any number of steps returns it again and changes no state. The latch is the spec's
decision D11 (log entry 5). -/
def Obligations.LatchedFaultIsSticky : Prop :=
  ∀ (m : OpcodeMap) (s : State) (f : VmFault) (n : Nat), s.fault = some f →
    stepTimes m (n + 1) s = some { s with out := some (.halted (.fault f)) }

/-- R110, R119: every step of every state answers a next state: no instruction, byte or operand stops the model. -/
def Obligations.EveryStepAnswers : Prop := ∀ (m : OpcodeMap) (s : State), ∃ t, stepWith m s = .next t

/-- R111: the machine's step is the algorithm line by line, wherever 64 bits hold every offset of the program. -/
def Obligations.StepIsTheAlgorithm : Prop :=
  ∀ (m : OpcodeMap) (s : State), s.prog.len < 2 ^ 64 → stepWith m s = algorithmStep m s

/-- R37, R110, R122: the step's result is an output: no step reads it, so a HLT leaves nothing a later step sees. That
the model keeps it in State is log entry 4. -/
def Obligations.OutputIsNeverRead : Prop :=
  ∀ (m : OpcodeMap) (s : State) (o : Option StepResult), stepWith m { s with out := o } = stepWith m s

/-- 95_test_vectors.md, note 1, and D1: one instruction's step under another admissible map, with the instruction at pc
encoded by that map, is the same but for the program. It says nothing of bytes that are not that instruction's: a jump
into operand bytes finds other opcodes under another map (R28). -/
def Obligations.OpcodeMapOnlyRelabels : Prop :=
  ∀ (m m' : OpcodeMap) (s t : State) (p : Memory) (i : Instr), m.Admissible → m'.Admissible →
    s.prog.Holds s.pc.toNat (encodeWith m i) → p.Holds s.pc.toNat (encodeWith m' i) →
    stepWith m s = .next t → stepWith m' { s with prog := p } = .next { t with prog := p }

/-! ## Invariants -/

/-- The invariant holds at reset, under every heap limit (R35). -/
def Obligations.ResetMeetsTheInvariant : Prop := ∀ limit : Nat, Inv limit State.reset

/-- Every step of every state that meets the invariant, under every map, gives a state that meets it: canonical
buffers, pc within R29's range, the heap within its limit and all zero (R34), the latch as answered (R30). -/
def Obligations.StepKeepsTheInvariant : Prop :=
  ∀ (m : OpcodeMap) (s t : State), Inv Config.heapLimit s → stepWith m s = .next t → Inv Config.heapLimit t

/-- R33, R40, R59: after any commands from reset the invariant holds and the program is within PROG_LIMIT. The limit's
enforcement is the spec's decision D16 (log entries 3 and 20). -/
def Obligations.SessionsKeepTheInvariant : Prop :=
  ∀ (m : OpcodeMap) (cs : List Command),
    Inv Config.heapLimit (session m cs State.reset) ∧ (session m cs State.reset).prog.len ≤ Config.progLimit

/-- Log entry 6: in canonical form, byte sequences of one length that read the same are the same data. -/
def Obligations.EqualBytesAreEqualMemories : Prop :=
  ∀ p q : Memory, p.wf = true → q.wf = true → p.len = q.len → (∀ a, p.read a = q.read a) → p = q

/-! ## The host interface -/

/-- R40, R222: `load` within the limit puts exactly the given bytes into PROG, sets pc to 0, clears the latch and keeps
the rest; past the limit it is refused. What it keeps and clears, and the refusal, are D11, D16 and D21 (log entries 5
and 20). -/
def Obligations.LoadReplacesTheProgram : Prop :=
  ∀ (limit : Nat) (bytes : List Byte) (s : State),
    (bytes.length ≤ limit → ∃ p : Memory, p.wf = true ∧ (∀ a, p.read a = bytes[a]?) ∧
      loadWith limit bytes s = .next { s with prog := p, pc := 0, fault := none }) ∧
    (limit < bytes.length → loadWith limit bytes s = .refused .loadTooLong)

/-- R40, R62: `append_byte` below the limit puts its byte at the old length, keeps every other byte and everything else,
the latch too; at the limit it is refused. The refusal is D16 (log entry 20). -/
def Obligations.AppendPushesOneByte : Prop :=
  ∀ (limit : Nat) (b : Byte) (s : State), s.prog.wf = true →
    (s.prog.len < limit → ∃ p : Memory, p.wf = true ∧ p.len = s.prog.len + 1 ∧ p.read s.prog.len = some b ∧
      (∀ a, a < s.prog.len → p.read a = s.prog.read a) ∧ appendWith limit b s = .next { s with prog := p }) ∧
    (limit ≤ s.prog.len → appendWith limit b s = .refused .appendAtLimit)

/-- R120: `run()` steps until a step returns Halted and then answers the state: it has returned `t` within `n` steps
exactly where `t` is the state after some `k < n` steps that did not halt and one that did. -/
def Obligations.RunStopsAtTheFirstHalt : Prop :=
  ∀ (m : OpcodeMap) (n : Nat) (s t : State), runFor m n s = some t ↔
    ∃ k, k < n ∧ stepTimes m (k + 1) s = some t ∧ t.isHalted = true ∧
      ∀ j u, j < k → stepTimes m (j + 1) s = some u → u.isHalted = false

/-- R226: a JMP to its own offset, and a JMPB by 2, never halt: no number of steps makes `run()` return. -/
def Obligations.SelfJumpsNeverHalt : Prop :=
  ∀ (m : OpcodeMap) (s : State) (r : RegIndex) (n : Nat), m.Admissible → s.fault = none → s.pc.toNat ≤ 2 ^ 32 →
    (s.prog.Holds s.pc.toNat (encodeWith m (.jmp (regByte r))) ∧ sval (s.x r) = s.pc.toNat) ∨
      (s.prog.Holds s.pc.toNat (encodeWith m (.jmpb (regByte r))) ∧ sval (s.x r) = 2) →
    runFor m n s = none

/-- R36, R190: STATUS[2:0] reads 0 with no fault and the latched fault's code otherwise. The numbers are the spec's
decision D23 (log entry 24). -/
def Obligations.StatusReadsTheLatch : Prop :=
  ∀ s : State, (hostRead .status s = some 0 ↔ s.fault = none) ∧
    (hostRead .status s = some 1 ↔ s.fault = some .illegalOpcode) ∧
    (hostRead .status s = some 2 ↔ s.fault = some .invalidRegisterIndex) ∧
    (hostRead .status s = some 3 ↔ s.fault = some .divisionByZero) ∧
    (hostRead .status s = some 4 ↔ s.fault = some .heapGrowthOverflow) ∧
    (hostRead .status s = some 5 ↔ s.fault = some .programUnderrun) ∧
    (hostRead .status s = some 6 ↔ s.fault = some .divisionOverflow) ∧
    (hostRead .status s = some 7 ↔ s.fault = some .jumpTargetOutOfRange)

/-- R33, R34, R40: in every state that meets the invariant with a program within PROG_LIMIT, reached or not, each of the
commands `load`, `append_byte` and `step` that answers a next state gives one that meets both, for every value of the
open PROG_LIMIT (at most 2^32, R8), so for `command` too. The limit's enforcement is the spec's decision D16 (log entries
3 and 20). -/
def Obligations.CommandsKeepTheInvariant : Prop :=
  ∀ (limit : Nat) (m : OpcodeMap) (c : Command) (s t : State), limit ≤ 2 ^ 32 →
    Inv Config.heapLimit s → s.prog.len ≤ limit → commandWith limit m c s = .next t →
    Inv Config.heapLimit t ∧ t.prog.len ≤ limit
end

