-- ==== Sys2Proof/Laws/Assembler.lean ====
section
/-! SUPPORT. The small lemmas of the assembler and the disassembler: decimal numbers, tokens and lines. -/

namespace Sys2Proof.Machine

open Sys2Proof

/-- A character that stands inside a token: no blank and no line terminator. -/
abbrev InToken (c : Char) : Prop := isBlank c = false ∧ c ≠ lineEnd

/-! Decimal numbers. -/

theorem digit?_digitChar {d : Nat} (h : d < 10) : digit? (digitChar d) = some d := by
  interval_cases d <;> decide

theorem inToken_digitChar {d : Nat} (h : d < 10) : InToken (digitChar d) := by
  interval_cases d <;> decide

theorem digitChar_ne {d : Nat} (h : d < 10) : digitChar d ≠ '$' ∧ digitChar d ≠ '-' := by
  interval_cases d <;> decide

theorem digitsFrom_append (c : Char) (d : Nat) (hd : digit? c = some d) : ∀ (w : Text) (acc n : Nat),
    digitsFrom acc w = some n → digitsFrom acc (w ++ [c]) = some (n * 10 + d)
  | [], acc, n, h => by
    cases h
    simp [digitsFrom, hd]
  | x :: w, acc, n, h => by
    simp only [List.cons_append, digitsFrom] at h ⊢
    split at h
    · cases h
    · exact digitsFrom_append c d hd w _ _ h

theorem digitsFrom_decimal : ∀ (fuel n : Nat), n < 10 ^ fuel → 0 < fuel → digitsFrom 0 (decimal fuel n) = some n
  | fuel + 1, n, h, _ => by
    unfold decimal
    split
    · rename_i hn
      simp [digitsFrom, digit?_digitChar hn]
    · have hf : n / 10 < 10 ^ fuel := by
        rw [Nat.div_lt_iff_lt_mul (by decide)]
        rwa [pow_succ] at h
      have hpos : 0 < fuel := by
        rcases Nat.eq_zero_or_pos fuel with rfl | h'
        · simp at hf
          omega
        · exact h'
      rw [digitsFrom_append _ (n % 10) (digit?_digitChar (Nat.mod_lt _ (by decide))) _ _ _
        (digitsFrom_decimal fuel (n / 10) hf hpos)]
      congr 1
      omega

/-- A decimal is a digit and then digits. -/
theorem decimal_digits : ∀ (fuel n : Nat) (c : Char), c ∈ decimal fuel n → ∃ d, d < 10 ∧ c = digitChar d
  | fuel + 1, n, c, h => by
    unfold decimal at h
    split at h
    · rename_i hn
      exact ⟨n, hn, by simpa using h⟩
    · rcases List.mem_append.mp h with h | h
      · exact decimal_digits fuel _ c h
      · exact ⟨n % 10, Nat.mod_lt _ (by decide), by simpa using h⟩

theorem decimal_ne_nil {fuel : Nat} (h : 0 < fuel) (n : Nat) : decimal fuel n ≠ [] := by
  obtain ⟨k, rfl⟩ : ∃ k, fuel = k + 1 := ⟨fuel - 1, by omega⟩
  unfold decimal
  split <;> simp

theorem natLiteral_decimal {fuel n : Nat} (h : n < 10 ^ fuel) (hf : 0 < fuel) : natLiteral (decimal fuel n) = some n := by
  rw [natLiteral, if_neg (decimal_ne_nil hf n), digitsFrom_decimal fuel n h hf]

/-! Tokens. -/

theorem readToken_showRegister (b : Byte) : readToken (showRegister b) = some (.register b) := by
  have := b.isLt
  simp [showRegister, readToken, registerToken, natLiteral_decimal (fuel := 3) (n := b.toNat) (by omega) (by decide),
    this]

/-- A token that begins with a digit is read as a number. -/
theorem readToken_digit {w : Text} (hw : w ≠ []) (h : ∀ c ∈ w, ∃ d, d < 10 ∧ c = digitChar d) {n : Nat}
    (hn : natLiteral w = some n) : readToken w = immediateOf n := by
  cases w with
  | nil => exact absurd rfl hw
  | cons c cs =>
    obtain ⟨d, hd, rfl⟩ := h c (by simp)
    have hne := digitChar_ne hd
    unfold readToken
    split
    · rename_i heq
      exact absurd (List.cons.inj heq).1 hne.1
    · rename_i heq
      exact absurd (List.cons.inj heq).1 hne.2
    · simp only [hn]

theorem readToken_showImmediate (v : Imm) : readToken (showImmediate v) = some (.immediate v) := by
  have h1 := BitVec.toInt_lt (x := v)
  have h2 := BitVec.le_toInt (x := v)
  have hl : natLiteral (decimal 5 v.toInt.natAbs) = some v.toInt.natAbs :=
    natLiteral_decimal (by simp at h1 h2; omega) (by decide)
  unfold showImmediate
  split
  · simp only [readToken, hl]
    rw [show -(v.toInt.natAbs : Int) = v.toInt by omega, immediateOf, if_pos (by simp at h1 h2; omega),
      BitVec.ofInt_toInt]
  · rw [readToken_digit (decimal_ne_nil (by decide) _) (decimal_digits 5 _) hl,
      show (v.toInt.natAbs : Int) = v.toInt by omega, immediateOf, if_pos (by simp at h1 h2; omega),
      BitVec.ofInt_toInt]

theorem inToken_showRegister (b : Byte) : ∀ c ∈ showRegister b, InToken c := by
  intro c hc
  rcases List.mem_cons.mp hc with rfl | hc
  · exact ⟨by decide, by decide⟩
  · obtain ⟨d, hd, rfl⟩ := decimal_digits _ _ c hc
    exact inToken_digitChar hd

theorem inToken_showImmediate (v : Imm) : ∀ c ∈ showImmediate v, InToken c := by
  intro c hc
  unfold showImmediate at hc
  split at hc
  · rcases List.mem_cons.mp hc with rfl | hc
    · exact ⟨by decide, by decide⟩
    · obtain ⟨d, hd, rfl⟩ := decimal_digits _ _ c hc
      exact inToken_digitChar hd
  · obtain ⟨d, hd, rfl⟩ := decimal_digits _ _ c hc
    exact inToken_digitChar hd

theorem inToken_mnemonic (op : Op) : ∀ c ∈ mnemonic op, InToken c := by
  have h : (mnemonic op).all (fun c => !isBlank c && c != lineEnd) = true := by cases op <;> decide
  intro c hc
  simpa using List.all_eq_true.mp h c hc

theorem opcodeOfMnemonic_mnemonic (op : Op) : opcodeOfMnemonic (mnemonic op) = some op := by cases op <;> decide

/-! Cutting a line into words. -/

theorem firstWord_append (w rest : Text) (h : ∀ c ∈ w, InToken c) (hr : ∀ c, rest.head? = some c → isBlank c = true) :
    firstWord (w ++ rest) = (w, rest) := by
  induction w with
  | nil =>
    cases rest with
    | nil => rfl
    | cons c cs => simp [firstWord, hr c rfl]
  | cons c w ih =>
    have hc := (h c (by simp)).1
    have := ih fun x hx => h x (by simp [hx])
    simp [firstWord, hc, this]

theorem tokensFrom_append (w rest : Text) (h : ∀ c ∈ w, InToken c) : ∀ cur : Text,
    tokensFrom cur (w ++ rest) = tokensFrom (cur ++ w) rest := by
  induction w with
  | nil => simp
  | cons c w ih =>
    intro cur
    have hc := (h c (by simp)).1
    simp [tokensFrom, hc, ih fun x hx => h x (by simp [hx])]

/-- A blank ends a token. -/
theorem tokensFrom_blank {cur rest : Text} (h : cur ≠ []) :
    tokensFrom cur (' ' :: rest) = cur :: tokensFrom [] (' ' :: rest) := by
  rw [tokensFrom, if_pos (by decide), if_neg h]
  rfl

end Sys2Proof.Machine
end

