-- ==== Sys2Proof/Laws/Decode.lean ====
section
/-! SUPPORT. The small lemmas of the instruction set definition: the table, the opcode lookup and the operand bytes. -/

namespace Sys2Proof

theorem Op.mem_all (op : Op) : op ∈ Op.all := by cases op <;> decide

/-- No instruction is longer than four bytes. -/
theorem Op.size_le (op : Op) : op.size ≤ longestInstr := by cases op <;> decide

/-- The operands of an instruction build it again. -/
@[simp] theorem Instr.build_operands (i : Instr) : Instr.build i.op i.operands = i := by cases i <;> rfl

@[simp] theorem Instr.op_build (op : Op) (o : Operands op.spec) : (Instr.build op o).op = op := by cases op <;> rfl

/-- The opcode byte of a lookup's result is the byte looked up. -/
theorem map_of_opcodeOfByte {m : OpcodeMap} {b : Byte} {op : Op} (h : opcodeOfByte m b = some op) : m op = b := by
  simpa using List.find?_some h

@[simp] theorem immOfBytes_immBytes (v : Imm) : immOfBytes (v.extractLsb' 8 8) (v.extractLsb' 0 8) = v := by
  unfold immOfBytes
  ext k hk
  simp only [BitVec.getElem_append, BitVec.getElem_extractLsb']
  split
  · simp [BitVec.getLsbD_eq_getElem hk]
  · rename_i h
    have : 8 + (k - 8) = k := by omega
    simp [this, BitVec.getLsbD_eq_getElem hk]

/-- Bit `k` of two bytes put together. -/
theorem getLsbD_immOfBytes (hi lo : Byte) (k : Nat) :
    (immOfBytes hi lo).getLsbD k = if k < 8 then lo.getLsbD k else hi.getLsbD (k - 8) :=
  (BitVec.getLsbD_append (x := hi) (y := lo)).trans (by split <;> simp_all)

@[simp] theorem immBytes_immOfBytes (hi lo : Byte) : immBytes (immOfBytes hi lo) = [hi, lo] := by
  unfold immBytes
  congr 1
  · ext k hk
    simp [getLsbD_immOfBytes, BitVec.getLsbD_eq_getElem hk]
  · congr 1
    ext k hk
    simp [getLsbD_immOfBytes, hk]

theorem length_encodeOperands : ∀ (ks : List OperandKind) (o : Operands ks), (encodeOperands ks o).length = operandBytes ks
  | [], _ => rfl
  | .register :: ks, o => by
    simp [encodeOperands, length_encodeOperands ks, operandBytes, OperandKind.width]
    omega
  | .immediate :: ks, o => by
    simp [encodeOperands, immBytes, length_encodeOperands ks, operandBytes, OperandKind.width]
    omega

/-- Operand bytes are missing exactly where the bytes are fewer than the spec's. -/
theorem parseOperands_eq_none : ∀ (ks : List OperandKind) (bs : List Byte),
    parseOperands ks bs = none ↔ bs.length < operandBytes ks
  | [], bs => by simp [parseOperands, operandBytes]
  | .register :: ks, [] => by simp [parseOperands, operandBytes, OperandKind.width]
  | .register :: ks, b :: bs => by
    have := parseOperands_eq_none ks bs
    simp [parseOperands, this, operandBytes, OperandKind.width]
    omega
  | .immediate :: ks, [] => by simp [parseOperands, operandBytes, OperandKind.width]
  | .immediate :: ks, [b] => by
    simp [parseOperands, operandBytes, OperandKind.width]
    omega
  | .immediate :: ks, hi :: lo :: bs => by
    have := parseOperands_eq_none ks bs
    simp [parseOperands, this, operandBytes, OperandKind.width]
    omega

end Sys2Proof
end

