-- ==== Sys2Proof/Laws/Memory.lean ====
section
/-! SUPPORT. The laws of a byte sequence: what each operation does to the bytes read, and that each keeps the canonical
form. -/

namespace Sys2Proof.Machine

open Sys2Proof

/-! Reading. -/

theorem Memory.read_eq_none_iff (m : Memory) (a : Nat) : m.read a = none ↔ m.len ≤ a := by
  simp [Memory.read]

theorem Memory.read_of_lt (m : Memory) {a : Nat} (h : a < m.len) : m.read a = some (lookupCell a m.cells) := by
  simp [Memory.read, h]

theorem Memory.lt_len_of_read (m : Memory) {a : Nat} {b : Byte} (h : m.read a = some b) : a < m.len := by
  simp [Memory.read] at h
  exact h.1

@[simp] theorem Memory.read_empty (a : Nat) : Memory.empty.read a = none := by simp [Memory.read, Memory.empty]

/-! The canonical form. -/

theorem cellsOk_cons (lo hi : Nat) (c : Host.Cell) (cs : List Host.Cell) :
    cellsOk lo hi (c :: cs) = true ↔ lo ≤ c.1 ∧ c.1 < hi ∧ c.2 ≠ unlistedByte ∧ cellsOk (c.1 + 1) hi cs = true := by
  simp [cellsOk, and_assoc]

theorem cellsOk_mono {cs : List Host.Cell} : ∀ {lo lo' hi hi' : Nat}, lo' ≤ lo → hi ≤ hi' → cellsOk lo hi cs = true →
    cellsOk lo' hi' cs = true := by
  induction cs with
  | nil => intros; rfl
  | cons c cs ih =>
    intro lo lo' hi hi' hlo hhi h
    rw [cellsOk_cons] at h ⊢
    exact ⟨hlo.trans h.1, h.2.1.trans_le hhi, h.2.2.1, ih le_rfl hhi h.2.2.2⟩

/-- Below its lower bound a list of cells lists nothing. -/
theorem lookupCell_below {cs : List Host.Cell} : ∀ {lo hi a : Nat}, cellsOk lo hi cs = true → a < lo →
    lookupCell a cs = unlistedByte := by
  induction cs with
  | nil => intros; rfl
  | cons c cs ih =>
    intro lo hi a h ha
    rw [cellsOk_cons] at h
    have : c.1 ≠ a := by omega
    simp only [lookupCell, if_neg this]
    exact ih h.2.2.2 (by omega)

/-- At and past its upper bound a list of cells lists nothing. -/
theorem lookupCell_above {cs : List Host.Cell} : ∀ {lo hi a : Nat}, cellsOk lo hi cs = true → hi ≤ a →
    lookupCell a cs = unlistedByte := by
  induction cs with
  | nil => intros; rfl
  | cons c cs ih =>
    intro lo hi a h ha
    rw [cellsOk_cons] at h
    have : c.1 ≠ a := by omega
    simp only [lookupCell, if_neg this]
    exact ih h.2.2.2 ha

@[simp] theorem Memory.wf_empty : Memory.empty.wf = true := rfl

/-! `grow`. -/

@[simp] theorem Memory.grow_len (m : Memory) (n : Nat) : (m.grow n).len = m.len + n := rfl

@[simp] theorem Memory.grow_cells (m : Memory) (n : Nat) : (m.grow n).cells = m.cells := rfl

theorem Memory.wf_grow (m : Memory) (n : Nat) (h : m.wf = true) : (m.grow n).wf = true :=
  cellsOk_mono le_rfl (Nat.le_add_right _ _) h

theorem Memory.read_grow_old (m : Memory) (n : Nat) {a : Nat} (h : a < m.len) : (m.grow n).read a = m.read a := by
  simp [Memory.read, h, Nat.lt_add_right n h]

theorem Memory.read_grow_new (m : Memory) (n : Nat) {a : Nat} (hw : m.wf = true) (h : m.len ≤ a) (h' : a < m.len + n) :
    (m.grow n).read a = some 0 := by
  simp [Memory.read, h', lookupCell_above hw h, unlistedByte]

/-! `push`. -/

@[simp] theorem Memory.push_len (m : Memory) (b : Byte) : (m.push b).len = m.len + 1 := rfl

theorem lookupCell_append {a n : Nat} {b : Byte} : ∀ cs : List Host.Cell, a ≠ n →
    lookupCell a (cs ++ [(n, b)]) = lookupCell a cs
  | [], h => by simp [lookupCell, h.symm]
  | c :: cs, h => by simp only [List.cons_append, lookupCell, lookupCell_append cs h]

theorem lookupCell_append_self {b : Byte} {cs : List Host.Cell} : ∀ {lo n : Nat}, cellsOk lo n cs = true →
    lookupCell n (cs ++ [(n, b)]) = b := by
  induction cs with
  | nil => intros; simp [lookupCell]
  | cons c cs ih =>
    intro lo n h
    rw [cellsOk_cons] at h
    have : c.1 ≠ n := by omega
    simp only [List.cons_append, lookupCell, if_neg this]
    exact ih h.2.2.2

theorem cellsOk_append {b : Byte} (hb : b ≠ unlistedByte) {cs : List Host.Cell} : ∀ {lo n : Nat}, lo ≤ n →
    cellsOk lo n cs = true → cellsOk lo (n + 1) (cs ++ [(n, b)]) = true := by
  induction cs with
  | nil =>
    intro lo n hlo _
    simp [cellsOk, hlo, hb]
  | cons c cs ih =>
    intro lo n hlo h
    rw [cellsOk_cons] at h
    rw [List.cons_append, cellsOk_cons]
    exact ⟨h.1, by omega, h.2.2.1, ih (by omega) h.2.2.2⟩

theorem Memory.wf_push (m : Memory) (b : Byte) (h : m.wf = true) : (m.push b).wf = true := by
  unfold Memory.wf Memory.push
  split
  · exact cellsOk_mono le_rfl (Nat.le_succ _) h
  · rename_i hb
    exact cellsOk_append hb (Nat.zero_le _) h

theorem Memory.read_push_old (m : Memory) (b : Byte) {a : Nat} (h : a < m.len) : (m.push b).read a = m.read a := by
  have h' : a < m.len + 1 := by omega
  have hne : a ≠ m.len := by omega
  simp only [Memory.read, Memory.push, h, h', if_true]
  split
  · rfl
  · rw [lookupCell_append _ hne]

theorem Memory.read_push_new (m : Memory) (b : Byte) (h : m.wf = true) : (m.push b).read m.len = some b := by
  simp only [Memory.read, Memory.push, Nat.lt_succ_self, if_true]
  split
  · rename_i hb
    rw [lookupCell_above h le_rfl, hb]
  · rw [lookupCell_append_self h]

/-! `ofBytes`. -/

theorem Memory.wf_foldl_push (bs : List Byte) : ∀ m : Memory, m.wf = true → (bs.foldl Memory.push m).wf = true := by
  induction bs with
  | nil => exact fun _ h => h
  | cons b bs ih => exact fun m h => ih _ (m.wf_push b h)

theorem Memory.wf_ofBytes (bs : List Byte) : (Memory.ofBytes bs).wf = true := wf_foldl_push bs _ rfl

theorem Memory.len_foldl_push (bs : List Byte) : ∀ m : Memory, (bs.foldl Memory.push m).len = m.len + bs.length := by
  induction bs with
  | nil => exact fun _ => rfl
  | cons b bs ih =>
    intro m
    rw [List.foldl_cons, ih, Memory.push_len, List.length_cons]
    omega

@[simp] theorem Memory.len_ofBytes (bs : List Byte) : (Memory.ofBytes bs).len = bs.length := by
  simp [Memory.ofBytes, Memory.len_foldl_push, Memory.empty]

/-! `write`. -/

@[simp] theorem Memory.write_len (m : Memory) (a : Nat) (b : Byte) : (m.write a b).len = max m.len (a + 1) := rfl

theorem lookupCell_setCell_ne {a k : Nat} {b : Byte} (h : k ≠ a) : ∀ cs : List Host.Cell,
    lookupCell k (setCell a b cs) = lookupCell k cs
  | [] => by
    unfold setCell
    split <;> simp [lookupCell, h.symm]
  | c :: cs => by
    have ih := lookupCell_setCell_ne (b := b) h cs
    unfold setCell
    split_ifs with h1 h2 h3 h4
    · rfl
    · simp only [lookupCell, if_neg (Ne.symm h)]
    · have : c.1 ≠ k := by omega
      simp only [lookupCell, if_neg this]
    · have : c.1 ≠ k := by omega
      simp only [lookupCell, if_neg (Ne.symm h), if_neg this]
    · simp only [lookupCell, ih]

theorem lookupCell_setCell_self {a : Nat} {b : Byte} {cs : List Host.Cell} : ∀ {lo hi : Nat}, cellsOk lo hi cs = true →
    lookupCell a (setCell a b cs) = b := by
  induction cs with
  | nil =>
    intros
    unfold setCell
    split <;> simp_all [lookupCell]
  | cons c cs ih =>
    intro lo hi h
    rw [cellsOk_cons] at h
    unfold setCell
    split_ifs with h1 h2 h3 h4
    · have : c.1 ≠ a := by omega
      simp only [lookupCell, if_neg this, h2]
      exact lookupCell_below h.2.2.2 (by omega)
    · simp [lookupCell]
    · rw [h4]
      exact lookupCell_below h.2.2.2 (by omega)
    · simp [lookupCell]
    · simp only [lookupCell, if_neg (Ne.symm h3)]
      exact ih h.2.2.2

theorem cellsOk_setCell {a : Nat} {b : Byte} {cs : List Host.Cell} : ∀ {lo hi : Nat}, lo ≤ a → a < hi →
    cellsOk lo hi cs = true → cellsOk lo hi (setCell a b cs) = true := by
  induction cs with
  | nil =>
    intro lo hi h1 h2 _
    unfold setCell
    split
    · rfl
    · simp_all [cellsOk]
  | cons c cs ih =>
    intro lo hi h1 h2 h
    have h' := (cellsOk_cons _ _ _ _).mp h
    unfold setCell
    split_ifs with h3 h4 h5 h6
    · exact h
    · rw [cellsOk_cons]
      refine ⟨h1, h2, h4, ?_⟩
      rw [cellsOk_cons]
      exact ⟨h3, h'.2⟩
    · exact cellsOk_mono (by omega) le_rfl h'.2.2.2
    · rw [cellsOk_cons]
      exact ⟨h1, h2, h6, by simpa [h5] using h'.2.2.2⟩
    · rw [cellsOk_cons]
      exact ⟨h'.1, h'.2.1, h'.2.2.1, ih (by omega) h2 h'.2.2.2⟩

theorem Memory.wf_write (m : Memory) (a : Nat) (b : Byte) (h : m.wf = true) : (m.write a b).wf = true :=
  cellsOk_setCell (Nat.zero_le _) (by simp) (cellsOk_mono le_rfl (Nat.le_max_left _ _) h)

theorem Memory.read_write_self (m : Memory) (a : Nat) (b : Byte) (h : m.wf = true) : (m.write a b).read a = some b := by
  simp [Memory.read, Memory.write, lookupCell_setCell_self h]

theorem Memory.read_write_ne (m : Memory) {a k : Nat} (b : Byte) (h : k ≠ a) (hk : k < m.len) :
    (m.write a b).read k = m.read k := by
  simp [Memory.read, Memory.write, lookupCell_setCell_ne h, hk]

theorem Memory.wf_writeAll (bs : List Byte) : ∀ (m : Memory) (a : Nat), m.wf = true → (m.writeAll a bs).wf = true := by
  induction bs with
  | nil => exact fun _ _ h => h
  | cons b bs ih => exact fun m a h => ih _ _ (m.wf_write a b h)

/-! Slices. -/

theorem Memory.slice_of_holds (m : Memory) (bs : List Byte) : ∀ (a n : Nat), m.Holds a bs → bs.length ≤ n →
    ∃ rest, m.slice a n = bs ++ rest := by
  induction bs with
  | nil => exact fun a n _ _ => ⟨_, rfl⟩
  | cons b bs ih =>
    intro a n h hn
    obtain ⟨n, rfl⟩ : ∃ k, n = k + 1 := ⟨n - 1, by simp at hn; omega⟩
    have h0 : m.read a = some b := by simpa using h 0 (by simp)
    have hrest : m.Holds (a + 1) bs := fun k hk => by
      have := h (k + 1) (by simpa using hk)
      simpa [Nat.add_comm 1 k, Nat.add_assoc] using this
    obtain ⟨rest, hr⟩ := ih (a + 1) n hrest (by simpa using hn)
    exact ⟨rest, by simp [Memory.slice, h0, hr]⟩

theorem Memory.length_slice (m : Memory) : ∀ (n a : Nat), (m.slice a n).length = min n (m.len - a) := by
  intro n
  induction n with
  | zero => intro a; simp [Memory.slice]
  | succ n ih =>
    intro a
    unfold Memory.slice
    by_cases h : a < m.len
    · rw [Memory.read_of_lt m h]
      simp only [List.length_cons, ih]
      omega
    · rw [(Memory.read_eq_none_iff m a).mpr (by omega)]
      simp only [List.length_nil]
      omega

theorem Memory.getElem?_slice (m : Memory) : ∀ (n a k : Nat), k < n → (m.slice a n)[k]? = m.read (a + k) := by
  intro n
  induction n with
  | zero => intro a k h; omega
  | succ n ih =>
    intro a k h
    unfold Memory.slice
    by_cases ha : a < m.len
    · rw [Memory.read_of_lt m ha]
      cases k with
      | zero => simp [Memory.read_of_lt m ha]
      | succ k =>
        rw [List.getElem?_cons_succ, ih (a + 1) k (by omega)]
        congr 1
        omega
    · rw [(Memory.read_eq_none_iff m a).mpr (by omega)]
      symm
      simp only [List.getElem?_nil]
      exact (Memory.read_eq_none_iff m _).mpr (by omega)

end Sys2Proof.Machine
end

