-- ==== Sys2Proof/Laws/State.lean ====
section
/-! SUPPORT. One lemma per field per update of the state, so that no proof unfolds a record update, and the read of a
register after each update. -/

namespace Sys2Proof.Machine

open Sys2Proof

/-! The fields after `setX`. -/

@[simp] theorem State.setX_regs (s : State) (r : RegIndex) (v : Word) : (s.setX r v).regs = s.regs.set r.val v := rfl
@[simp] theorem State.setX_pc (s : State) (r : RegIndex) (v : Word) : (s.setX r v).pc = s.pc := rfl
@[simp] theorem State.setX_flag (s : State) (r : RegIndex) (v : Word) : (s.setX r v).flag = s.flag := rfl
@[simp] theorem State.setX_rem (s : State) (r : RegIndex) (v : Word) : (s.setX r v).rem = s.rem := rfl
@[simp] theorem State.setX_prog (s : State) (r : RegIndex) (v : Word) : (s.setX r v).prog = s.prog := rfl
@[simp] theorem State.setX_heap (s : State) (r : RegIndex) (v : Word) : (s.setX r v).heap = s.heap := rfl
@[simp] theorem State.setX_fault (s : State) (r : RegIndex) (v : Word) : (s.setX r v).fault = s.fault := rfl
@[simp] theorem State.setX_out (s : State) (r : RegIndex) (v : Word) : (s.setX r v).out = s.out := rfl

/-! The fields after `setFlag`. -/

@[simp] theorem State.setFlag_regs (s : State) (b : Bool) : (s.setFlag b).regs = s.regs := rfl
@[simp] theorem State.setFlag_pc (s : State) (b : Bool) : (s.setFlag b).pc = s.pc := rfl
@[simp] theorem State.setFlag_flag (s : State) (b : Bool) : (s.setFlag b).flag = b := rfl
@[simp] theorem State.setFlag_rem (s : State) (b : Bool) : (s.setFlag b).rem = s.rem := rfl
@[simp] theorem State.setFlag_prog (s : State) (b : Bool) : (s.setFlag b).prog = s.prog := rfl
@[simp] theorem State.setFlag_heap (s : State) (b : Bool) : (s.setFlag b).heap = s.heap := rfl
@[simp] theorem State.setFlag_fault (s : State) (b : Bool) : (s.setFlag b).fault = s.fault := rfl
@[simp] theorem State.setFlag_out (s : State) (b : Bool) : (s.setFlag b).out = s.out := rfl

@[simp] theorem State.x_setFlag (s : State) (b : Bool) (k : RegIndex) : (s.setFlag b).x k = s.x k := rfl

/-! The fields after `setRem`. -/

@[simp] theorem State.setRem_regs (s : State) (v : Word) : (s.setRem v).regs = s.regs := rfl
@[simp] theorem State.setRem_pc (s : State) (v : Word) : (s.setRem v).pc = s.pc := rfl
@[simp] theorem State.setRem_flag (s : State) (v : Word) : (s.setRem v).flag = s.flag := rfl
@[simp] theorem State.setRem_rem (s : State) (v : Word) : (s.setRem v).rem = v := rfl
@[simp] theorem State.setRem_prog (s : State) (v : Word) : (s.setRem v).prog = s.prog := rfl
@[simp] theorem State.setRem_heap (s : State) (v : Word) : (s.setRem v).heap = s.heap := rfl
@[simp] theorem State.setRem_fault (s : State) (v : Word) : (s.setRem v).fault = s.fault := rfl
@[simp] theorem State.setRem_out (s : State) (v : Word) : (s.setRem v).out = s.out := rfl

@[simp] theorem State.x_setRem (s : State) (v : Word) (k : RegIndex) : (s.setRem v).x k = s.x k := rfl

/-! The fields after `setPc`. -/

@[simp] theorem State.setPc_regs (s : State) (t : Offset) : (s.setPc t).regs = s.regs := rfl
@[simp] theorem State.setPc_pc (s : State) (t : Offset) : (s.setPc t).pc = t := rfl
@[simp] theorem State.setPc_flag (s : State) (t : Offset) : (s.setPc t).flag = s.flag := rfl
@[simp] theorem State.setPc_rem (s : State) (t : Offset) : (s.setPc t).rem = s.rem := rfl
@[simp] theorem State.setPc_prog (s : State) (t : Offset) : (s.setPc t).prog = s.prog := rfl
@[simp] theorem State.setPc_heap (s : State) (t : Offset) : (s.setPc t).heap = s.heap := rfl
@[simp] theorem State.setPc_fault (s : State) (t : Offset) : (s.setPc t).fault = s.fault := rfl
@[simp] theorem State.setPc_out (s : State) (t : Offset) : (s.setPc t).out = s.out := rfl

@[simp] theorem State.x_setPc (s : State) (t : Offset) (k : RegIndex) : (s.setPc t).x k = s.x k := rfl

/-! The fields after `advance`. -/

@[simp] theorem State.advance_regs (s : State) (n : Nat) : (s.advance n).regs = s.regs := rfl
@[simp] theorem State.advance_pc (s : State) (n : Nat) : (s.advance n).pc = s.pc + BitVec.ofNat 64 n := rfl
@[simp] theorem State.advance_flag (s : State) (n : Nat) : (s.advance n).flag = s.flag := rfl
@[simp] theorem State.advance_rem (s : State) (n : Nat) : (s.advance n).rem = s.rem := rfl
@[simp] theorem State.advance_prog (s : State) (n : Nat) : (s.advance n).prog = s.prog := rfl
@[simp] theorem State.advance_heap (s : State) (n : Nat) : (s.advance n).heap = s.heap := rfl
@[simp] theorem State.advance_fault (s : State) (n : Nat) : (s.advance n).fault = s.fault := rfl
@[simp] theorem State.advance_out (s : State) (n : Nat) : (s.advance n).out = s.out := rfl

@[simp] theorem State.x_advance (s : State) (n : Nat) (k : RegIndex) : (s.advance n).x k = s.x k := rfl

/-! The fields after `setHeap`. -/

@[simp] theorem State.setHeap_regs (s : State) (h : Memory) : (s.setHeap h).regs = s.regs := rfl
@[simp] theorem State.setHeap_pc (s : State) (h : Memory) : (s.setHeap h).pc = s.pc := rfl
@[simp] theorem State.setHeap_flag (s : State) (h : Memory) : (s.setHeap h).flag = s.flag := rfl
@[simp] theorem State.setHeap_rem (s : State) (h : Memory) : (s.setHeap h).rem = s.rem := rfl
@[simp] theorem State.setHeap_prog (s : State) (h : Memory) : (s.setHeap h).prog = s.prog := rfl
@[simp] theorem State.setHeap_heap (s : State) (h : Memory) : (s.setHeap h).heap = h := rfl
@[simp] theorem State.setHeap_fault (s : State) (h : Memory) : (s.setHeap h).fault = s.fault := rfl
@[simp] theorem State.setHeap_out (s : State) (h : Memory) : (s.setHeap h).out = s.out := rfl

@[simp] theorem State.x_setHeap (s : State) (h : Memory) (k : RegIndex) : (s.setHeap h).x k = s.x k := rfl

/-! The fields after `answer`. -/

@[simp] theorem State.answer_regs (s : State) (r : StepResult) : (s.answer r).regs = s.regs := rfl
@[simp] theorem State.answer_pc (s : State) (r : StepResult) : (s.answer r).pc = s.pc := rfl
@[simp] theorem State.answer_flag (s : State) (r : StepResult) : (s.answer r).flag = s.flag := rfl
@[simp] theorem State.answer_rem (s : State) (r : StepResult) : (s.answer r).rem = s.rem := rfl
@[simp] theorem State.answer_prog (s : State) (r : StepResult) : (s.answer r).prog = s.prog := rfl
@[simp] theorem State.answer_heap (s : State) (r : StepResult) : (s.answer r).heap = s.heap := rfl
@[simp] theorem State.answer_fault (s : State) (r : StepResult) : (s.answer r).fault = s.fault := rfl
@[simp] theorem State.answer_out (s : State) (r : StepResult) : (s.answer r).out = some r := rfl

@[simp] theorem State.x_answer (s : State) (r : StepResult) (k : RegIndex) : (s.answer r).x k = s.x k := rfl

/-! The fields after `raised`. -/

@[simp] theorem State.raised_regs (s : State) (f : VmFault) : (s.raised f).regs = s.regs := rfl
@[simp] theorem State.raised_pc (s : State) (f : VmFault) : (s.raised f).pc = s.pc := rfl
@[simp] theorem State.raised_flag (s : State) (f : VmFault) : (s.raised f).flag = s.flag := rfl
@[simp] theorem State.raised_rem (s : State) (f : VmFault) : (s.raised f).rem = s.rem := rfl
@[simp] theorem State.raised_prog (s : State) (f : VmFault) : (s.raised f).prog = s.prog := rfl
@[simp] theorem State.raised_heap (s : State) (f : VmFault) : (s.raised f).heap = s.heap := rfl
@[simp] theorem State.raised_fault (s : State) (f : VmFault) : (s.raised f).fault = some f := rfl
@[simp] theorem State.raised_out (s : State) (f : VmFault) : (s.raised f).out = some (.halted (.fault f)) := rfl

@[simp] theorem State.x_raised (s : State) (f : VmFault) (k : RegIndex) : (s.raised f).x k = s.x k := rfl

/-! The fields after `clearLatch`. -/

@[simp] theorem State.clearLatch_regs (s : State) : s.clearLatch.regs = s.regs := rfl
@[simp] theorem State.clearLatch_pc (s : State) : s.clearLatch.pc = s.pc := rfl
@[simp] theorem State.clearLatch_flag (s : State) : s.clearLatch.flag = s.flag := rfl
@[simp] theorem State.clearLatch_rem (s : State) : s.clearLatch.rem = s.rem := rfl
@[simp] theorem State.clearLatch_prog (s : State) : s.clearLatch.prog = s.prog := rfl
@[simp] theorem State.clearLatch_heap (s : State) : s.clearLatch.heap = s.heap := rfl
@[simp] theorem State.clearLatch_fault (s : State) : s.clearLatch.fault = none := rfl
@[simp] theorem State.clearLatch_out (s : State) : s.clearLatch.out = s.out := rfl

@[simp] theorem State.x_clearLatch (s : State) (k : RegIndex) : s.clearLatch.x k = s.x k := rfl

/-! The registers after a register write. -/

@[simp] theorem State.x_setX_self (s : State) (r : RegIndex) (v : Word) : (s.setX r v).x r = v := by
  simp [State.x, State.setX]

theorem State.x_setX_ne (s : State) (r k : RegIndex) (v : Word) (h : k ≠ r) : (s.setX r v).x k = s.x k := by
  have h' : r.val ≠ k.val := fun e => h (Fin.ext e.symm)
  simp [State.x, State.setX, h']

/-! Reset. -/

@[simp] theorem State.x_reset (r : RegIndex) : State.reset.x r = 0 := by simp [State.x, State.reset]

end Sys2Proof.Machine
end

