-- ==== Sys2Proof/Laws/Ops.lean ====
section
/-! SUPPORT. One lemma for each shared operation that says what it can answer; later proofs cite these and do not
unfold the operations. -/

namespace Sys2Proof.Machine

open Sys2Proof

/-! The register operand byte and the arbiter. -/

theorem toNat_regByte (r : RegIndex) : (regByte r).toNat = r.val := by
  have := r.isLt
  simp only [regByte, BitVec.toNat_ofNat]
  omega

@[simp] theorem regIndex?_regByte (r : RegIndex) : regIndex? (regByte r) = some r := by
  have h := toNat_regByte r
  have := r.isLt
  unfold regIndex?
  rw [dif_pos (by omega)]
  exact congrArg some (Fin.ext h)

theorem regIndex?_eq_some {b : Byte} {r : RegIndex} : regIndex? b = some r ↔ b = regByte r := by
  constructor
  · intro h
    unfold regIndex? at h
    split at h
    · cases h
      simp [regByte]
    · cases h
  · rintro rfl
    simp

theorem regIndex?_eq_none {b : Byte} : regIndex? b = none ↔ 32 ≤ b.toNat := by
  unfold regIndex?
  split <;> simp_all

theorem regByte_injective {r k : RegIndex} (h : regByte r = regByte k) : r = k := by
  have := congrArg regIndex? h
  simpa using this

/-- A byte below 32 is the operand byte of a register. -/
theorem exists_regByte {b : Byte} (h : b.toNat < 32) : ∃ r, b = regByte r := by
  cases hr : regIndex? b with
  | none => exact absurd (regIndex?_eq_none.mp hr) (by omega)
  | some r => exact ⟨r, regIndex?_eq_some.mp hr⟩

@[simp] theorem isRegister_regByte (r : RegIndex) : Byte.IsRegister (regByte r) := by
  have := toNat_regByte r
  have := r.isLt
  unfold Byte.IsRegister
  omega

@[simp] theorem withReg_regByte (r : RegIndex) (s : State) (use : RegIndex → Host.Outcome State Fault Refusal) :
    withReg (regByte r) s use = use r := by simp [withReg]

theorem withReg_bad {b : Byte} (h : 32 ≤ b.toNat) (s : State) (use : RegIndex → Host.Outcome State Fault Refusal) :
    withReg b s use = .next (s.raised .invalidRegisterIndex) := by
  simp [withReg, regIndex?_eq_none.mpr h, raise]

/-- What the arbiter answers: the operation at the register the byte names, or the fault. -/
theorem withReg_cases (b : Byte) (s : State) (use : RegIndex → Host.Outcome State Fault Refusal) :
    (∃ r, b = regByte r ∧ withReg b s use = use r) ∨
    (32 ≤ b.toNat ∧ withReg b s use = .next (s.raised .invalidRegisterIndex)) := by
  rcases lt_or_ge b.toNat 32 with h | h
  · obtain ⟨r, rfl⟩ := exists_regByte h
    exact .inl ⟨r, rfl, withReg_regByte r s use⟩
  · exact .inr ⟨h, withReg_bad h s use⟩

theorem withRegs2_cases (ra rb : Byte) (s : State) (use : RegIndex → RegIndex → Host.Outcome State Fault Refusal) :
    (∃ a b, ra = regByte a ∧ rb = regByte b ∧ withRegs2 ra rb s use = use a b) ∨
    ((32 ≤ ra.toNat ∨ 32 ≤ rb.toNat) ∧ withRegs2 ra rb s use = .next (s.raised .invalidRegisterIndex)) := by
  unfold withRegs2
  rcases withReg_cases ra s fun a => withReg rb s fun b => use a b with ⟨a, ha, e⟩ | ⟨ha, e⟩
  · rcases withReg_cases rb s fun b => use a b with ⟨b, hb, e'⟩ | ⟨hb, e'⟩
    · exact .inl ⟨a, b, ha, hb, e.trans e'⟩
    · exact .inr ⟨.inr hb, e.trans e'⟩
  · exact .inr ⟨.inl ha, e⟩

theorem withRegs3_cases (ra rb rd : Byte) (s : State)
    (use : RegIndex → RegIndex → RegIndex → Host.Outcome State Fault Refusal) :
    (∃ a b d, ra = regByte a ∧ rb = regByte b ∧ rd = regByte d ∧ withRegs3 ra rb rd s use = use a b d) ∨
    ((32 ≤ ra.toNat ∨ 32 ≤ rb.toNat ∨ 32 ≤ rd.toNat) ∧
      withRegs3 ra rb rd s use = .next (s.raised .invalidRegisterIndex)) := by
  unfold withRegs3
  rcases withReg_cases ra s fun a => withReg rb s fun b => withReg rd s fun d => use a b d with ⟨a, ha, e⟩ | ⟨ha, e⟩
  · rcases withReg_cases rb s fun b => withReg rd s fun d => use a b d with ⟨b, hb, e'⟩ | ⟨hb, e'⟩
    · rcases withReg_cases rd s fun d => use a b d with ⟨d, hd, e''⟩ | ⟨hd, e''⟩
      · exact .inl ⟨a, b, d, ha, hb, hd, (e.trans e').trans e''⟩
      · exact .inr ⟨.inr (.inr hd), (e.trans e').trans e''⟩
    · exact .inr ⟨.inr (.inl hb), e.trans e'⟩
  · exact .inr ⟨.inl ha, e⟩

/-! The templates at registers that exist. -/

@[simp] theorem arithWith_regByte (f : Int → Int → Int) (a b d : RegIndex) (s : State) :
    arithWith f (regByte a) (regByte b) (regByte d) s =
      .next ((s.setX d (wrap32 (f (sval (s.x a)) (sval (s.x b))))).answer .continue) := by
  simp [arithWith, withRegs3, complete]

@[simp] theorem stepReg_regByte (k : Int) (r : RegIndex) (s : State) :
    stepReg k (regByte r) s = .next ((s.setX r (wrap32 (sval (s.x r) + k))).answer .continue) := by
  simp [stepReg, complete]

@[simp] theorem compareWith_regByte (rel : Int → Int → Bool) (a b : RegIndex) (s : State) :
    compareWith rel (regByte a) (regByte b) s =
      .next ((s.setFlag (rel (sval (s.x a)) (sval (s.x b)))).answer .continue) := by
  simp [compareWith, withRegs2, complete]

/-! Division. -/

theorem divide_by_zero (a : Int) : divide a 0 = .error .divisionByZero := by simp [divide]

theorem divide_overflow : divide (-2 ^ 31) (-1) = .error .divisionOverflow := by simp [divide]

theorem divide_ok {a b : Int} (h0 : b ≠ 0) (h1 : ¬(a = -2 ^ 31 ∧ b = -1)) :
    divide a b = .ok (wrap32 (tdiv a b), wrap32 (trem a b)) := by
  unfold divide
  rw [if_neg h0, if_neg h1]

/-- What a division answers: its two faults, else the quotient and the remainder. -/
theorem divide_cases (a b : Int) :
    (b = 0 ∧ divide a b = .error .divisionByZero) ∨
    (a = -2 ^ 31 ∧ b = -1 ∧ divide a b = .error .divisionOverflow) ∨
    (b ≠ 0 ∧ ¬(a = -2 ^ 31 ∧ b = -1) ∧ divide a b = .ok (wrap32 (tdiv a b), wrap32 (trem a b))) := by
  by_cases h0 : b = 0
  · exact .inl ⟨h0, h0 ▸ divide_by_zero a⟩
  · by_cases h1 : a = -2 ^ 31 ∧ b = -1
    · exact .inr (.inl ⟨h1.1, h1.2, by rw [h1.1, h1.2, divide_overflow]⟩)
    · exact .inr (.inr ⟨h0, h1, divide_ok h0 h1⟩)

/-! Jumps and heap growth. -/

theorem jumpTo_neg {t : Int} (h : t < 0) (s : State) : jumpTo t s = .next (s.raised .jumpTargetOutOfRange) := by
  simp [jumpTo, h, raise]

theorem jumpTo_nonneg {t : Int} (h : 0 ≤ t) (s : State) :
    jumpTo t s = .next ((s.setPc (BitVec.ofInt 64 t)).answer .continue) := by
  simp [jumpTo, not_lt.mpr h, complete]

/-- What a taken jump answers. -/
theorem jumpTo_cases (t : Int) (s : State) :
    (t < 0 ∧ jumpTo t s = .next (s.raised .jumpTargetOutOfRange)) ∨
    (0 ≤ t ∧ jumpTo t s = .next ((s.setPc (BitVec.ofInt 64 t)).answer .continue)) := by
  rcases lt_or_ge t 0 with h | h
  · exact .inl ⟨h, jumpTo_neg h s⟩
  · exact .inr ⟨h, jumpTo_nonneg h s⟩

/-- The pc a jump writes is its target, which 64 bits hold. -/
theorem toNat_ofInt_target {t : Int} (h : 0 ≤ t) (h' : t < 2 ^ 64) : ((BitVec.ofInt 64 t).toNat : Int) = t := by
  rw [BitVec.toNat_ofInt, Int.toNat_of_nonneg (Int.emod_nonneg _ (by norm_num))]
  exact Int.emod_eq_of_lt h (by simpa using h')

theorem growHeap_neg {n : Int} (h : n < 0) (limit : Nat) (s : State) :
    growHeap limit n s = .next (s.raised .heapGrowthOverflow) := by
  simp [growHeap, h, raise]

/-- What heap growth answers: the fault for a negative count or past the limit, else the grown heap. -/
theorem growHeap_cases (limit : Nat) (n : Int) (s : State) :
    ((n < 0 ∨ limit < s.heap.len + n.toNat) ∧ growHeap limit n s = .next (s.raised .heapGrowthOverflow)) ∨
    (0 ≤ n ∧ s.heap.len + n.toNat ≤ limit ∧
      growHeap limit n s = .next ((s.setHeap (s.heap.grow n.toNat)).answer .continue)) := by
  unfold growHeap
  split_ifs with h h'
  · exact .inl ⟨.inl h, rfl⟩
  · exact .inr ⟨not_lt.mp h, h', rfl⟩
  · exact .inl ⟨.inr (not_le.mp h'), rfl⟩

/-! The range of a register's value. -/

theorem sval_lt (v : Word) : sval v < 2 ^ 31 := by
  have := BitVec.toInt_lt (x := v)
  simpa [sval] using this

theorem le_sval (v : Word) : -2 ^ 31 ≤ sval v := by
  have := BitVec.le_toInt (x := v)
  simpa [sval] using this

end Sys2Proof.Machine
end

