-- ==== Sys2Proof/Laws/Exec.lean ====
section
/-! SUPPORT. What an instruction can answer, said once: every invariant and every frame follows from `exec_answers`. -/

namespace Sys2Proof.Machine

open Sys2Proof

/-- The next states an instruction can answer from a state. -/
inductive ExecNext (i : Instr) (s : State) : State → Prop
  | badRegister (bad : ¬i.WellFormed) : ExecNext i s (s.raised .invalidRegisterIndex)
  | faulted (f : VmFault) (good : i.WellFormed) (own : f ∈ operationFaults i.op) : ExecNext i s (s.raised f)
  | halted (isHlt : i = .hlt) : ExecNext i s (s.answer (.halted .hlt))
  | wroteRegister (d : RegIndex) (v : Word) (notHlt : i ≠ .hlt) (dest : regByte d ∈ writeSet i) (notDiv : i.op ≠ .div)
      (notComparison : isComparison i.op = false) (notJump : isJump i.op = false) (notAlloc : i.op ≠ .alloc) :
      ExecNext i s ((s.setX d v).answer .continue)
  | divided (d : RegIndex) (q r : Word) (dest : regByte d ∈ writeSet i) (isDiv : i.op = .div) :
      ExecNext i s (((s.setX d q).setRem r).answer .continue)
  | compared (b : Bool) (isComp : isComparison i.op = true) : ExecNext i s ((s.setFlag b).answer .continue)
  | jumped (t : Int) (isJ : isJump i.op = true) (nonneg : 0 ≤ t) (bounded : t ≤ s.pc.toNat + 2 ^ 31) :
      ExecNext i s ((s.setPc (BitVec.ofInt 64 t)).answer .continue)
  | fellThrough (isCond : isConditional i.op = true) : ExecNext i s (s.answer .continue)
  | grew (n : Nat) (isAlloc : i.op = .alloc) (fits : s.heap.len + n ≤ Config.heapLimit) :
      ExecNext i s ((s.setHeap (s.heap.grow n)).answer .continue)

/-! Each meaning, by the shared operation it is made of. -/

theorem arithWith_answers {i : Instr} {ra rb rd : Byte} {s : State} (f : Int → Int → Int)
    (hr : i.regOperands = [ra, rb, rd]) (hw : writeSet i = [rd]) (h0 : i ≠ .hlt) (h1 : i.op ≠ .div)
    (h2 : isComparison i.op = false) (h3 : isJump i.op = false) (h4 : i.op ≠ .alloc) :
    ∃ t, arithWith f ra rb rd s = .next t ∧ ExecNext i s t := by
  rcases withRegs3_cases ra rb rd s fun a b d =>
      complete (s.setX d (wrap32 (f (sval (s.x a)) (sval (s.x b))))) with ⟨a, b, d, -, -, hd, e⟩ | ⟨h, e⟩
  · exact ⟨_, e, .wroteRegister d _ h0 (by simp [hw, hd]) h1 h2 h3 h4⟩
  · exact ⟨_, e, .badRegister (by simp [Instr.WellFormed, hr, Byte.IsRegister]; omega)⟩

theorem compareWith_answers {i : Instr} {ra rb : Byte} {s : State} (rel : Int → Int → Bool)
    (hr : i.regOperands = [ra, rb]) (hc : isComparison i.op = true) :
    ∃ t, compareWith rel ra rb s = .next t ∧ ExecNext i s t := by
  rcases withRegs2_cases ra rb s fun a b =>
      complete (s.setFlag (rel (sval (s.x a)) (sval (s.x b)))) with ⟨a, b, -, -, e⟩ | ⟨h, e⟩
  · exact ⟨_, e, .compared _ hc⟩
  · exact ⟨_, e, .badRegister (by simp [Instr.WellFormed, hr, Byte.IsRegister]; omega)⟩

theorem jumpTo_answers {i : Instr} {s : State} {t : Int} (hw : i.WellFormed) (hj : isJump i.op = true)
    (hf : VmFault.jumpTargetOutOfRange ∈ operationFaults i.op) (hb : t ≤ s.pc.toNat + 2 ^ 31) :
    ∃ u, jumpTo t s = .next u ∧ ExecNext i s u := by
  rcases jumpTo_cases t s with ⟨-, e⟩ | ⟨h, e⟩
  · exact ⟨_, e, .faulted _ hw hf⟩
  · exact ⟨_, e, .jumped t hj h hb⟩

/-- An instruction of one register operand answers what its operation answers, or the arbiter's fault. -/
theorem withReg_answers {i : Instr} {r : Byte} {s : State} {use : RegIndex → Host.Outcome State Fault Refusal}
    (hr : i.regOperands = [r])
    (h : ∀ k, r = regByte k → i.WellFormed → ∃ t, use k = .next t ∧ ExecNext i s t) :
    ∃ t, withReg r s use = .next t ∧ ExecNext i s t := by
  rcases withReg_cases r s use with ⟨k, hk, e⟩ | ⟨hb, e⟩
  · obtain ⟨t, ht, hn⟩ := h k hk (by simp [Instr.WellFormed, hr, hk])
    exact ⟨t, e.trans ht, hn⟩
  · exact ⟨_, e, .badRegister (by simp [Instr.WellFormed, hr, Byte.IsRegister]; omega)⟩

theorem stepReg_answers {i : Instr} {r : Byte} {s : State} (k : Int) (hr : i.regOperands = [r]) (hw : writeSet i = [r])
    (h0 : i ≠ .hlt) (h1 : i.op ≠ .div) (h2 : isComparison i.op = false) (h3 : isJump i.op = false)
    (h4 : i.op ≠ .alloc) : ∃ t, stepReg k r s = .next t ∧ ExecNext i s t :=
  withReg_answers hr fun d hd _ => ⟨_, rfl, .wroteRegister d _ h0 (by simp [hw, hd]) h1 h2 h3 h4⟩

theorem jumpIf_answers {i : Instr} {r : Byte} {s : State} (want : Bool) (hr : i.regOperands = [r])
    (hj : isJump i.op = true) (hc : isConditional i.op = true)
    (hf : VmFault.jumpTargetOutOfRange ∈ operationFaults i.op) :
    ∃ t, jumpIf want r s = .next t ∧ ExecNext i s t := by
  refine withReg_answers hr fun k _ hw => ?_
  have := sval_lt (s.x k)
  split
  · exact jumpTo_answers hw hj hf (by omega)
  · exact ⟨_, rfl, .fellThrough hc⟩

theorem execDiv_answers (ra rb rd : Byte) (s : State) :
    ∃ t, execDiv ra rb rd s = .next t ∧ ExecNext (.div ra rb rd) s t := by
  rcases withRegs3_cases ra rb rd s fun a b d =>
      match divide (sval (s.x a)) (sval (s.x b)) with
      | .error f => raise f s
      | .ok (q, r) => complete ((s.setX d q).setRem r) with ⟨a, b, d, ha, hb, hd, e⟩ | ⟨h, e⟩
  · have hw : (Instr.div ra rb rd).WellFormed := by
      subst ha hb hd
      simp [Instr.WellFormed, Instr.regOperands]
    rcases divide_cases (sval (s.x a)) (sval (s.x b)) with ⟨-, h⟩ | ⟨-, -, h⟩ | ⟨-, -, h⟩ <;> rw [h] at e
    · exact ⟨_, e, .faulted _ hw (by simp [Instr.op, operationFaults])⟩
    · exact ⟨_, e, .faulted _ hw (by simp [Instr.op, operationFaults])⟩
    · exact ⟨_, e, .divided d _ _ (by simp [writeSet, hd]) rfl⟩
  · exact ⟨_, e, .badRegister (by simp [Instr.WellFormed, Instr.regOperands, Byte.IsRegister]; omega)⟩

theorem execAlloc_answers (r : Byte) (s : State) : ∃ t, execAlloc r s = .next t ∧ ExecNext (.alloc r) s t := by
  refine withReg_answers rfl fun k _ hw => ?_
  rcases growHeap_cases Config.heapLimit (sval (s.x k)) s with ⟨-, e⟩ | ⟨-, h, e⟩
  · exact ⟨_, e, .faulted _ hw (by simp [Instr.op, operationFaults])⟩
  · exact ⟨_, e, .grew _ rfl h⟩

/-- Every instruction answers a next state, and it is one of `ExecNext`'s. -/
theorem exec_answers (i : Instr) (s : State) : ∃ t, exec i s = .next t ∧ ExecNext i s t := by
  cases i with
  | hlt => exact ⟨_, rfl, .halted rfl⟩
  | load r imm =>
    exact withReg_answers rfl fun d hd _ => ⟨_, rfl, .wroteRegister d _ (by simp) (by simp [writeSet, hd])
      (by simp [Instr.op]) rfl rfl (by simp [Instr.op])⟩
  | add ra rb rd => exact arithWith_answers _ rfl rfl (by simp) (by simp [Instr.op]) rfl rfl (by simp [Instr.op])
  | sub ra rb rd => exact arithWith_answers _ rfl rfl (by simp) (by simp [Instr.op]) rfl rfl (by simp [Instr.op])
  | mul ra rb rd => exact arithWith_answers _ rfl rfl (by simp) (by simp [Instr.op]) rfl rfl (by simp [Instr.op])
  | div ra rb rd => exact execDiv_answers ra rb rd s
  | jmp r =>
    refine withReg_answers rfl fun k _ hw => jumpTo_answers hw rfl (by simp [Instr.op, operationFaults]) ?_
    have := sval_lt (s.x k)
    omega
  | jmpf r =>
    refine withReg_answers rfl fun k _ hw => jumpTo_answers hw rfl (by simp [Instr.op, operationFaults]) ?_
    have := sval_lt (s.x k)
    omega
  | jmpb r =>
    refine withReg_answers rfl fun k _ hw => jumpTo_answers hw rfl (by simp [Instr.op, operationFaults]) ?_
    have := le_sval (s.x k)
    omega
  | eq ra rb => exact compareWith_answers _ rfl rfl
  | neq ra rb => exact compareWith_answers _ rfl rfl
  | gt ra rb => exact compareWith_answers _ rfl rfl
  | lt ra rb => exact compareWith_answers _ rfl rfl
  | gtq ra rb => exact compareWith_answers _ rfl rfl
  | ltq ra rb => exact compareWith_answers _ rfl rfl
  | jeq r => exact jumpIf_answers _ rfl rfl rfl (by simp [Instr.op, operationFaults])
  | jneq r => exact jumpIf_answers _ rfl rfl rfl (by simp [Instr.op, operationFaults])
  | alloc r => exact execAlloc_answers r s
  | inc r => exact stepReg_answers _ rfl rfl (by simp) (by simp [Instr.op]) rfl rfl (by simp [Instr.op])
  | dec r => exact stepReg_answers _ rfl rfl (by simp) (by simp [Instr.op]) rfl rfl (by simp [Instr.op])

/-- The inversion of `exec`: a next state it answers is one of `ExecNext`'s. -/
theorem exec_next {i : Instr} {s t : State} (h : exec i s = .next t) : ExecNext i s t := by
  obtain ⟨u, hu, hn⟩ := exec_answers i s
  rw [hu] at h
  cases h
  exact hn

/-! The step. -/

/-- The length of the fetched bytes: up to four, as far as the program goes. -/
theorem length_fetchBytes (s : State) : (fetchBytes s).length = min longestInstr (s.prog.len - s.pc.toNat) :=
  Memory.length_slice _ _ _

/-- What a step does, by the first check that decides it (R194). -/
theorem stepWith_cases (m : OpcodeMap) (s : State) :
    (∃ f, s.fault = some f ∧ stepWith m s = .next (s.answer (.halted (.fault f)))) ∨
    (s.fault = none ∧ s.prog.len ≤ s.pc.toNat ∧ stepWith m s = .next (s.answer (.halted .endOfProgram))) ∨
    (∃ f, s.fault = none ∧ s.pc.toNat < s.prog.len ∧ (f = .illegalOpcode ∨ f = .programUnderrun) ∧
      stepWith m s = .next ((s.advance 1).raised f)) ∨
    (∃ i rest, s.fault = none ∧ s.pc.toNat < s.prog.len ∧ decodeWith m (fetchBytes s) = .ok (i, rest) ∧
      stepWith m s = exec i (s.advance i.size)) := by
  unfold stepWith
  cases hf : s.fault with
  | some f => exact .inl ⟨f, rfl, rfl⟩
  | none =>
    right
    by_cases hl : s.prog.len ≤ s.pc.toNat
    · exact .inl ⟨rfl, hl, by simp [hl, halt]⟩
    · right
      rw [if_neg hl]
      have hl' := not_le.mp hl
      cases hd : decodeWith m (fetchBytes s) with
      | ok p => exact .inr ⟨p.1, p.2, rfl, hl', rfl, rfl⟩
      | error e =>
        left
        cases e with
        | noByte =>
          have h := length_fetchBytes s
          cases hb : fetchBytes s with
          | nil =>
            rw [hb] at h
            simp [longestInstr] at h
            omega
          | cons b bs =>
            rw [hb] at hd
            simp only [decodeWith] at hd
            repeat' split at hd
            all_goals cases hd
        | illegalOpcode b => exact ⟨_, rfl, hl', .inl rfl, rfl⟩
        | underrun op => exact ⟨_, rfl, hl', .inr rfl, rfl⟩

end Sys2Proof.Machine
end

