-- ==== Sys2Proof/Laws/HostPort.lean ====
section
/-! SUPPORT. What each host command can answer, said once; later proofs cite these and do not unfold the commands. -/

namespace Sys2Proof.Machine

open Sys2Proof

theorem Config.progLimit_le : Config.progLimit ≤ 2 ^ 32 := Nat.le_of_lt_succ Config.progLimitBounded.isLt

theorem loadWith_cases (limit : Nat) (bytes : List Byte) (s : State) :
    (bytes.length ≤ limit ∧
      loadWith limit bytes s = .next { (s.setPc 0).clearLatch with prog := Memory.ofBytes bytes }) ∨
    (limit < bytes.length ∧ loadWith limit bytes s = .refused .loadTooLong) := by
  unfold loadWith
  split <;> simp_all

theorem appendWith_cases (limit : Nat) (b : Byte) (s : State) :
    (s.prog.len < limit ∧ appendWith limit b s = .next { s with prog := s.prog.push b }) ∨
    (limit ≤ s.prog.len ∧ appendWith limit b s = .refused .appendAtLimit) := by
  unfold appendWith
  split <;> simp_all

@[simp] theorem commandWith_load (limit : Nat) (m : OpcodeMap) (bytes : List Byte) (s : State) :
    commandWith limit m (.load bytes) s = loadWith limit bytes s := rfl

@[simp] theorem commandWith_appendByte (limit : Nat) (m : OpcodeMap) (b : Byte) (s : State) :
    commandWith limit m (.appendByte b) s = appendWith limit b s := rfl

@[simp] theorem commandWith_step (limit : Nat) (m : OpcodeMap) (s : State) :
    commandWith limit m .step s = stepWith m s := rfl

end Sys2Proof.Machine
end

