-- ==== Sys2Proof/Laws/PerInstr.lean ====
section
/-! SUPPORT. Statements about every instruction as syntax, one lemma for each constructor. -/

namespace Sys2Proof.Laws.EncodedSize

open Sys2Proof

/-- Under every map the encoding begins with the opcode's byte and has the opcode's size, 1 to 4 bytes, one more
than its operand bytes (R70, R72, R84). -/
def Statement (i : Instr) : Prop :=
  ∀ m : OpcodeMap, (encodeWith m i).head? = some (m i.op) ∧ (encodeWith m i).length = i.size ∧
    i.size ≤ longestInstr ∧ i.size = 1 + (encodeOperands i.op.spec i.operands).length

theorem hlt : Statement .hlt := fun _ => ⟨rfl, rfl, Op.size_le _, rfl⟩
theorem load (r : Byte) (imm : Imm) : Statement (.load r imm) := fun _ => ⟨rfl, rfl, Op.size_le _, rfl⟩
theorem add (ra rb rd : Byte) : Statement (.add ra rb rd) := fun _ => ⟨rfl, rfl, Op.size_le _, rfl⟩
theorem sub (ra rb rd : Byte) : Statement (.sub ra rb rd) := fun _ => ⟨rfl, rfl, Op.size_le _, rfl⟩
theorem mul (ra rb rd : Byte) : Statement (.mul ra rb rd) := fun _ => ⟨rfl, rfl, Op.size_le _, rfl⟩
theorem div (ra rb rd : Byte) : Statement (.div ra rb rd) := fun _ => ⟨rfl, rfl, Op.size_le _, rfl⟩
theorem jmp (r : Byte) : Statement (.jmp r) := fun _ => ⟨rfl, rfl, Op.size_le _, rfl⟩
theorem jmpf (r : Byte) : Statement (.jmpf r) := fun _ => ⟨rfl, rfl, Op.size_le _, rfl⟩
theorem jmpb (r : Byte) : Statement (.jmpb r) := fun _ => ⟨rfl, rfl, Op.size_le _, rfl⟩
theorem eq (ra rb : Byte) : Statement (.eq ra rb) := fun _ => ⟨rfl, rfl, Op.size_le _, rfl⟩
theorem neq (ra rb : Byte) : Statement (.neq ra rb) := fun _ => ⟨rfl, rfl, Op.size_le _, rfl⟩
theorem gt (ra rb : Byte) : Statement (.gt ra rb) := fun _ => ⟨rfl, rfl, Op.size_le _, rfl⟩
theorem lt (ra rb : Byte) : Statement (.lt ra rb) := fun _ => ⟨rfl, rfl, Op.size_le _, rfl⟩
theorem gtq (ra rb : Byte) : Statement (.gtq ra rb) := fun _ => ⟨rfl, rfl, Op.size_le _, rfl⟩
theorem ltq (ra rb : Byte) : Statement (.ltq ra rb) := fun _ => ⟨rfl, rfl, Op.size_le _, rfl⟩
theorem jeq (r : Byte) : Statement (.jeq r) := fun _ => ⟨rfl, rfl, Op.size_le _, rfl⟩
theorem jneq (r : Byte) : Statement (.jneq r) := fun _ => ⟨rfl, rfl, Op.size_le _, rfl⟩
theorem alloc (r : Byte) : Statement (.alloc r) := fun _ => ⟨rfl, rfl, Op.size_le _, rfl⟩
theorem inc (r : Byte) : Statement (.inc r) := fun _ => ⟨rfl, rfl, Op.size_le _, rfl⟩
theorem dec (r : Byte) : Statement (.dec r) := fun _ => ⟨rfl, rfl, Op.size_le _, rfl⟩

end Sys2Proof.Laws.EncodedSize
end

