-- ==== Sys2Proof/Laws/Relate.lean ====
section
/-! SUPPORT. Comparing one instruction in two states: outcomes related by a relation on their next states, and what each
shared operation needs for its outcomes to be related. -/

namespace Sys2Proof.Machine

open Sys2Proof

/-- Both outcomes are next states, and these are related. -/
def Related (R : State → State → Prop) :
    Host.Outcome State Fault Refusal → Host.Outcome State Fault Refusal → Prop
  | .next t, .next t' => R t t'
  | .next _, .fault _ => False
  | .next _, .refused _ => False
  | .fault _, _ => False
  | .refused _, _ => False

theorem Related.next {R : State → State → Prop} {o : Host.Outcome State Fault Refusal} {t : State}
    (h : Related R (.next t) o) : ∃ t', o = .next t' ∧ R t t' := by
  cases o with
  | next t' => exact ⟨t', rfl, h⟩
  | fault r => exact h.elim
  | refused r => exact h.elim

theorem withReg_related {R : State → State → Prop} (b : Byte) (s s' : State)
    (use use' : RegIndex → Host.Outcome State Fault Refusal)
    (bad : R (s.raised .invalidRegisterIndex) (s'.raised .invalidRegisterIndex))
    (good : ∀ r, b = regByte r → Related R (use r) (use' r)) :
    Related R (withReg b s use) (withReg b s' use') := by
  rcases withReg_cases b s use with ⟨r, rfl, e⟩ | ⟨h, e⟩
  · simpa using good r rfl
  · rw [e, withReg_bad h]
    exact bad

theorem jumpTo_related {R : State → State → Prop} (t : Int) (s s' : State)
    (bad : R (s.raised .jumpTargetOutOfRange) (s'.raised .jumpTargetOutOfRange))
    (good : ∀ p, R ((s.setPc p).answer .continue) ((s'.setPc p).answer .continue)) :
    Related R (jumpTo t s) (jumpTo t s') := by
  rcases lt_or_ge t 0 with h | h
  · rw [jumpTo_neg h, jumpTo_neg h]
    exact bad
  · rw [jumpTo_nonneg h, jumpTo_nonneg h]
    exact good _

theorem growHeap_related {R : State → State → Prop} (limit : Nat) (n : Int) (s s' : State)
    (len : s'.heap.len = s.heap.len)
    (bad : R (s.raised .heapGrowthOverflow) (s'.raised .heapGrowthOverflow))
    (good : ∀ k, R ((s.setHeap (s.heap.grow k)).answer .continue) ((s'.setHeap (s'.heap.grow k)).answer .continue)) :
    Related R (growHeap limit n s) (growHeap limit n s') := by
  rcases growHeap_cases limit n s with ⟨h, e⟩ | ⟨h, h', e⟩ <;>
    rcases growHeap_cases limit n s' with ⟨k, e'⟩ | ⟨k, k', e'⟩ <;> rw [e, e']
  · exact bad
  · exfalso
    omega
  · exfalso
    omega
  · exact good _

end Sys2Proof.Machine
end

