-- ==== Sys2Proof/Tests/Slice0.lean ====
section
/-! SUPPORT. Small tests, each on a fixed state and one step, with expected values from spec/95_test_vectors.md or worked
out by hand from the rules; and a named witness for the hypotheses of each statement. -/

namespace Sys2Proof.Tests

open Sys2Proof Sys2Proof.Machine

/-! ## Helpers -/

/-- Reset, then the bytes loaded, with `x[0]` and `x[1]` set. -/
def start (bytes : List Byte) (x0 x1 : Word) : State :=
  { (State.reset.setX 0 x0).setX 1 x1 with prog := Memory.ofBytes bytes }

/-- One step's next state through a read of it. -/
def after {α : Type} (s : State) (view : State → α) : Option α := (nextState? (step s)).map view

/-- One operation's next state through a read of it. -/
def ran {α : Type} (i : Instr) (s : State) (view : State → α) : Option α := (nextState? (exec i s)).map view

/-- The operation's outcome is a next state through a read of it. -/
def seen {α : Type} (o : Host.Outcome State Fault Refusal) (view : State → α) : Option α := (nextState? o).map view

/-! ## Well-formedness: an ill-formed term for each operand place (R21, R83) -/

/-- One operand of 32, or of 255, in each place; every other operand names a register. -/
def illFormed : List Instr :=
  [.load 32 0, .add 32 0 0, .add 0 32 0, .add 0 0 32, .sub 32 0 0, .sub 0 32 0, .sub 0 0 32, .mul 32 0 0,
   .mul 0 32 0, .mul 0 0 32, .div 32 0 0, .div 0 32 0, .div 0 0 32] ++
  [.jmp 32, .jmpf 255, .jmpb 32, .eq 32 0, .eq 0 32, .neq 32 0, .neq 0 32, .gt 32 0, .gt 0 32, .lt 32 0, .lt 0 32] ++
  [.gtq 32 0, .gtq 0 32, .ltq 32 0, .ltq 0 32, .jeq 32, .jneq 255, .alloc 32, .inc 32, .dec 255]

theorem test_wellFormed_refuses : illFormed.all (fun i => !decide i.WellFormed) = true := by decide

theorem test_wellFormed_accepts :
    [Instr.hlt, .load 31 0xFFFF, .add 0 1 31, .eq 31 31, .jmp 0, .alloc 31].all (fun i => decide i.WellFormed) = true := by
  decide

/-! ## Decoding: one word for each constructor, written out from R73 and R74 -/

theorem test_decode_hlt : decode [0x00] = .ok (.hlt, []) := by decide
theorem test_decode_load : decode [0x01, 0x1F, 0x80, 0x07] = .ok (.load 31 0x8007, []) := by decide
theorem test_decode_add : decode [0x02, 0x01, 0x02, 0x03] = .ok (.add 1 2 3, []) := by decide
theorem test_decode_sub : decode [0x03, 0x04, 0x05, 0x06] = .ok (.sub 4 5 6, []) := by decide
theorem test_decode_mul : decode [0x04, 0x07, 0x08, 0x09] = .ok (.mul 7 8 9, []) := by decide
theorem test_decode_div : decode [0x05, 0x00, 0x28, 0x02] = .ok (.div 0 40 2, []) := by decide
theorem test_decode_jmp : decode [0x06, 0x28, 0x00] = .ok (.jmp 40, [0x00]) := by decide
theorem test_decode_jmpf : decode [0x07, 0x0A] = .ok (.jmpf 10, []) := by decide
theorem test_decode_jmpb : decode [0x08, 0x02] = .ok (.jmpb 2, []) := by decide
theorem test_decode_eq : decode [0x09, 0x00, 0x01] = .ok (.eq 0 1, []) := by decide
theorem test_decode_neq : decode [0x0A, 0x00, 0x02] = .ok (.neq 0 2, []) := by decide
theorem test_decode_gt : decode [0x0B, 0x03, 0x04] = .ok (.gt 3 4, []) := by decide
theorem test_decode_lt : decode [0x0C, 0x05, 0x06] = .ok (.lt 5 6, []) := by decide
theorem test_decode_gtq : decode [0x0D, 0x07, 0x08] = .ok (.gtq 7 8, []) := by decide
theorem test_decode_ltq : decode [0x0E, 0x09, 0x0A] = .ok (.ltq 9 10, []) := by decide
theorem test_decode_jeq : decode [0x0F, 0x02] = .ok (.jeq 2, []) := by decide
theorem test_decode_jneq : decode [0x10, 0x03] = .ok (.jneq 3, []) := by decide
theorem test_decode_alloc : decode [0x11, 0x00] = .ok (.alloc 0, []) := by decide
theorem test_decode_inc : decode [0x12, 0x05] = .ok (.inc 5, []) := by decide
theorem test_decode_dec : decode [0x13, 0xFF] = .ok (.dec 255, []) := by decide

/-- The same bytes as numbered words: the first byte is bits 7 to 0. -/
theorem test_table_words :
    decodeTableWord 32 0x03020102 = some (.add 1 2 3) ∧ decodeTableWord 8 0x01 = some (.load 0 0) ∧
    decodeTableWord 8 0x14 = none := by decide

/-- A word placed at reset is fetched and run (the operand bytes above it are zero). -/
theorem test_placed_word : after (State.reset.withFetchWord 32 0xF4010001) (fun s => (s.x 0, s.pc)) = some (500, 4) := by
  decide

/-! ## The data and arithmetic instructions -/

/-- V2.3. -/
theorem test_load_sign_extends : after (start [0x01, 0x02, 0x80, 0x00] 0 0) (fun s => (s.x 2, s.pc)) = some (0xFFFF8000, 4) := by
  decide
/-- V2.9, the highest register. -/
theorem test_load_highest : after (start [0x01, 0x1F, 0x00, 0x07] 0 0) (fun s => s.x 31) = some 7 := by decide
/-- V3.2. -/
theorem test_add_wraps : after (start [0x02, 0x00, 0x01, 0x02] 0x7FFFFFFF 1) (fun s => s.x 2) = some 0x80000000 := by decide
/-- R24: the destination is both sources. -/
theorem test_add_same_register : after (start [0x02, 0x00, 0x00, 0x00] 3 0) (fun s => s.x 0) = some 6 := by decide
/-- V3.5. -/
theorem test_sub_order : after (start [0x03, 0x00, 0x01, 0x02] 3 10) (fun s => s.x 2) = some 0xFFFFFFF9 := by decide
/-- V3.6. -/
theorem test_sub_wraps : after (start [0x03, 0x00, 0x01, 0x02] 0x80000000 1) (fun s => s.x 2) = some 0x7FFFFFFF := by decide
/-- V3.12. -/
theorem test_mul_low_bits : after (start [0x04, 0x00, 0x01, 0x02] 100000 100000) (fun s => s.x 2) = some 0x540BE400 := by decide
/-- V3.10. -/
theorem test_mul_min : after (start [0x04, 0x00, 0x01, 0x02] 0x80000000 0xFFFFFFFF) (fun s => s.x 2) = some 0x80000000 := by
  decide
/-- V4.3: toward zero, the remainder of the dividend's sign. -/
theorem test_div_rounds_to_zero :
    after (start [0x05, 0x00, 0x01, 0x02] 0xFFFFFFF9 2) (fun s => (s.x 2, s.rem)) = some (0xFFFFFFFD, 0xFFFFFFFF) := by decide
/-- V4.8: the overflow faults and writes neither result. -/
theorem test_div_overflow :
    after (start [0x05, 0x00, 0x01, 0x02] 0x80000000 0xFFFFFFFF) (fun s => (s.x 2, s.rem, s.pc, s.fault)) =
      some (0, 0, 4, some .divisionOverflow) := by decide
/-- V5.2. -/
theorem test_inc_wraps : after (start [0x12, 0x00] 0x7FFFFFFF 0) (fun s => (s.x 0, s.pc)) = some (0x80000000, 2) := by decide
/-- V1.7: 32 names no register. -/
theorem test_inc_bad_register : after (start [0x12, 0x20] 0 0) (fun s => (s.pc, s.fault)) = some (2, some .invalidRegisterIndex) := by
  decide
/-- V5.5. -/
theorem test_dec_wraps : after (start [0x13, 0x00] 0 0) (fun s => s.x 0) = some 0xFFFFFFFF := by decide

/-! ## The comparisons: V6.4 (-1 and 1), V6.5 and V6.7 -/

theorem test_eq : after (start [0x09, 0x00, 0x01] 7 7) (fun s => (s.flag, s.pc)) = some (true, 3) := by decide
theorem test_neq : after (start [0x0A, 0x00, 0x01] 4 0) (fun s => s.flag) = some true := by decide
theorem test_gt_signed : after (start [0x0B, 0x00, 0x01] 0xFFFFFFFF 1) (fun s => s.flag) = some false := by decide
theorem test_gt_ends : after (start [0x0B, 0x00, 0x01] 0x7FFFFFFF 0x80000000) (fun s => s.flag) = some true := by decide
theorem test_lt_signed : after (start [0x0C, 0x00, 0x01] 0xFFFFFFFF 1) (fun s => s.flag) = some true := by decide
theorem test_gtq_equal : after (start [0x0D, 0x00, 0x01] 3 3) (fun s => s.flag) = some true := by decide
theorem test_gtq_signed : after (start [0x0D, 0x00, 0x01] 0x80000000 0) (fun s => s.flag) = some false := by decide
theorem test_ltq_equal : after (start [0x0E, 0x00, 0x01] 0 0) (fun s => s.flag) = some true := by decide
theorem test_ltq_greater : after (start [0x0E, 0x00, 0x01] 5 3) (fun s => s.flag) = some false := by decide

/-! ## Control transfer: the operation at the pc the fetch leaves (V7) -/

/-- V1.2 and V1.3: HLT returns Halted(Hlt) with pc past it, and a later step runs on. -/
theorem test_hlt : after (start [0x00, 0x12, 0x00] 0 0) (fun s => (s.pc, s.out, after s fun t => (t.x 0, t.pc))) =
    some (1, some (.halted .hlt), some (1, 3)) := by decide
/-- V7.10: a target past the end is written. -/
theorem test_jmp_past_end : ran (.jmp 0) ((start [] 1000 0).setPc 6) (fun s => (s.pc, s.out)) = some (1000, some .continue) := by
  decide
/-- V7.9. -/
theorem test_jmp_negative : ran (.jmp 0) ((start [] 0xFFFFFFFF 0).setPc 6) (fun s => (s.pc, s.fault)) =
    some (6, some .jumpTargetOutOfRange) := by decide
/-- V7.2. -/
theorem test_jmpf : ran (.jmpf 0) ((start [] 4 0).setPc 6) (fun s => s.pc) = some 10 := by decide
/-- V7.4: a negative offset jumps back. -/
theorem test_jmpf_back : ran (.jmpf 0) ((start [] 0xFFFFFFFE 0).setPc 6) (fun s => s.pc) = some 4 := by decide
/-- V7.5. -/
theorem test_jmpb : ran (.jmpb 1) ((start [] 0 10).setPc 22) (fun s => s.pc) = some 12 := by decide
/-- V7.8. -/
theorem test_jmpb_negative : ran (.jmpb 1) ((start [] 0 23).setPc 22) (fun s => (s.pc, s.fault)) =
    some (22, some .jumpTargetOutOfRange) := by decide
/-- V7.11. -/
theorem test_jeq_taken : ran (.jeq 0) (((start [] 21 0).setPc 17).setFlag true) (fun s => s.pc) = some 21 := by decide
/-- V7.13: not taken, so the negative target is no fault. -/
theorem test_jeq_not_taken : ran (.jeq 0) ((start [] 0xFFFFFFFB 0).setPc 17) (fun s => (s.pc, s.fault)) = some (17, none) := by
  decide
/-- V7.15. -/
theorem test_jneq_taken : ran (.jneq 4) ((start [] 0 0).setPc 10) (fun s => s.pc) = some 0 := by decide
/-- V7.16. -/
theorem test_jneq_not_taken : ran (.jneq 4) (((start [] 0 0).setPc 10).setFlag true) (fun s => s.pc) = some 10 := by decide

/-! ## The heap: V8.3 at the open limit, V8.5 and V8.6 under a limit -/

theorem test_alloc_zero : after (start [0x11, 0x00] 0 0) (fun s => (s.heap.len, s.pc, s.fault)) = some (0, 2, none) := by decide
theorem test_alloc_limits :
    seen (allocWith 15 0 ((start [] 10 0).setHeap ⟨10, []⟩)) (fun s => (s.heap.len, s.fault)) = some (10, some .heapGrowthOverflow) ∧
    seen (allocWith 20 0 ((start [] 10 0).setHeap ⟨10, []⟩)) (fun s => (s.heap.len, s.heap.read 19, s.heap.read 20)) =
      some (20, some 0, none) := by decide

/-! ## The step's own checks, in their order (V1, V9) -/

/-- V1.1. -/
theorem test_empty_program : after State.reset (fun s => (s.pc, s.out)) = some (0, some (.halted .endOfProgram)) := by decide
/-- W7. -/
theorem test_illegal_opcode : after (start [0xFF] 0 0) (fun s => (s.pc, s.fault)) = some (1, some .illegalOpcode) := by decide
/-- V1.4. -/
theorem test_underrun : after (start [0x01, 0x00, 0x00] 0 0) (fun s => (s.pc, s.fault)) = some (1, some .programUnderrun) := by decide
/-- V9.1: the register check comes before the division's. -/
theorem test_fault_order : after (start [0x05, 0x00, 0x28, 0x02] 0 0) (fun s => s.fault) = some (some .invalidRegisterIndex) := by
  decide
/-- V7.17: an operand that would not be used is checked. -/
theorem test_unused_operand : after (start [0x0F, 0x28] 0 0) (fun s => (s.pc, s.fault)) = some (2, some .invalidRegisterIndex) := by
  decide
/-- R117 with a latched fault, and V1.10: `load` clears it and keeps the registers. -/
theorem test_latch :
    after { start [0x12, 0x00] 1 0 with fault := some .divisionByZero } (fun s => (s.x 0, s.pc, s.out)) =
      some (1, 0, some (.halted (.fault .divisionByZero))) ∧
    seen (loadWith 1 [0x00] { start [] 1 0 with pc := 4, fault := some .invalidRegisterIndex })
      (fun s => (s.pc, s.fault, s.x 0, s.prog.read 0)) = some (0, none, 1, some 0) := by decide
/-- P5, lines 3 to 5: a byte sequence appended at the end of the program is run by the next step. -/
theorem test_append_then_step :
    (nextState? (appendWith 6 0x12 ((start [0x01, 0x00, 0x00, 0x05] 5 0).setPc 4))).bind (fun s =>
      (nextState? (appendWith 6 0x00 s)).bind fun s => after s fun s => (s.x 0, s.pc)) = some (6, 6) := by decide
/-- R36, R190: the code of DivisionByZero. -/
theorem test_status : hostRead .status { State.reset with fault := some .divisionByZero } = some 3 := by decide

/-! ## The assembler (V10; P1's first line) -/

theorem test_assemble_blanks :
    assembleBytes OpcodeMap.default ['L', 'O', 'A', 'D', ' ', ' ', '$', '0', '\t', '5', '0', '0', '\n'] =
      .ok [0x01, 0x00, 0x01, 0xF4] := by decide
/-- V2.5: a literal outside 16 bits is truncated. -/
theorem test_assemble_truncates :
    assemble ['L', 'O', 'A', 'D', ' ', '$', '4', ' ', '4', '0', '0', '0', '0', '\n'] = .ok [.load 4 0x9C40] := by decide
/-- V10.2, V10.3, V10.5, V10.6, V10.8 and V10.9. -/
theorem test_assemble_faults :
    assemble ['H', 'L', 'T'] = .error (.missingLineTerminator 0) ∧
    assemble ['H', 'L', 'T', '\n', 'F', 'O', 'O', '\n'] = .error (.unknownMnemonic 1) ∧
    assemble ['L', 'O', 'A', 'D', ' ', '$', '0', '\n'] = .error (.operandCountMismatch 0 .load) ∧
    assemble ['L', 'O', 'A', 'D', ' ', '$', '0', ' ', '$', '1', '\n'] = .error (.operandKindMismatch 0 .load) ∧
    assemble ['L', 'O', 'A', 'D', ' ', '$', 'x', ' ', '6', '\n'] = .error (.malformedOperandLiteral 0) ∧
    assemble ['I', 'N', 'C', ' ', '$', '2', '5', '6', '\n'] = .error (.malformedOperandLiteral 0) := by decide
/-- R99. -/
theorem test_listing : listing [.load 0 (-5), .add 1 0 31] =
    ['L', 'O', 'A', 'D', ' ', '$', '0', ' ', '-', '5', '\n',
     'A', 'D', 'D', ' ', '$', '1', ' ', '$', '0', ' ', '$', '3', '1', '\n'] := by decide

/-! ## Witnesses: a state and operands that meet each statement's hypotheses -/

/-- Maps other than the default: its bytes moved up. -/
def movedMap (k : Byte) : OpcodeMap := fun op => OpcodeMap.default op + k

theorem witness_admissible : (movedMap 0x20).Admissible ∧ (movedMap 0x40).Admissible := by
  refine ⟨⟨?_, by intro a; cases a <;> decide⟩, ⟨?_, by intro a; cases a <;> decide⟩⟩ <;>
  · intro a b
    cases a <;> cases b <;> first | exact fun _ => rfl | exact fun h => absurd h (by decide)

theorem witness_DecodedBytesAreTheEncoding :
    decodeWith OpcodeMap.default [0x01, 0x00, 0x01, 0xF4, 0x13] = .ok (.load 0 500, [0x13]) := by decide

/-- The extreme quotient, -2^31 by 1, meets the hypotheses of DivWritesQuotientAndRemainder and DivisionLaw. -/
theorem witness_division : sval ((start [] 0x80000000 1).x 1) ≠ 0 ∧
    ¬(sval ((start [] 0x80000000 1).x 0) = -2 ^ 31 ∧ sval ((start [] 0x80000000 1).x 1) = -1) := by decide

theorem witness_DivFaults : sval ((start [] 5 0).x 1) = 0 ∧
    (sval ((start [] 0x80000000 0xFFFFFFFF).x 0) = -2 ^ 31 ∧ sval ((start [] 0x80000000 0xFFFFFFFF).x 1) = -1) := by decide

theorem witness_HltHalts : (start [0x20] 0 0).fault = none ∧
    (start [0x20] 0 0).prog.read (start [0x20] 0 0).pc.toNat = some (movedMap 0x20 .hlt) := by decide

/-- The ends of the range: targets 0 and 2^31 - 1. -/
theorem witness_JmpIsAbsolute : 0 ≤ sval ((start [] 0 0x7FFFFFFF).x 0) ∧ 0 ≤ sval ((start [] 0 0x7FFFFFFF).x 1) := by decide

/-- Both clauses at the target 0. -/
theorem witness_JmpfJmpbAreRelative :
    ((start [] 0xFFFFFFEA 22).setPc 22).pc.toNat ≤ 2 ^ 33 ∧
    (((start [] 0xFFFFFFEA 22).setPc 22).pc.toNat : Int) + sval ((start [] 0xFFFFFFEA 22).x 0) = 0 ∧
    (((start [] 0xFFFFFFEA 22).setPc 22).pc.toNat : Int) - sval ((start [] 0xFFFFFFEA 22).x 1) = 0 := by decide

theorem witness_JeqJneqFollowTheFlag : ((start [] 0 0).setFlag true).flag = true ∧ 0 ≤ sval (((start [] 0 0).setFlag true).x 0) ∧
    (start [] 0 0).flag = false ∧ 0 ≤ sval ((start [] 0 0).x 0) := by decide

/-- All clauses just below 0. -/
theorem witness_NegativeTargetFaults :
    sval ((start [] 0xFFFFFFFF 1).x 0) < 0 ∧ ((start [] 0xFFFFFFFF 1).pc.toNat : Int) + sval ((start [] 0xFFFFFFFF 1).x 0) < 0 ∧
    ((start [] 0xFFFFFFFF 1).pc.toNat : Int) - sval ((start [] 0xFFFFFFFF 1).x 1) < 0 ∧
    (start [] 0xFFFFFFFF 1).flag = false ∧ ((start [] 0xFFFFFFFF 1).setFlag true).flag = true := by decide

/-- HEAP_LIMIT is open, so the count that surely fits is 0. -/
theorem witness_AllocGrowsTheHeap : 0 ≤ sval ((start [] 0 0).x 0) ∧
    (start [] 0 0).heap.len + (sval ((start [] 0 0).x 0)).toNat ≤ Config.heapLimit := ⟨by decide, Nat.zero_le _⟩

/-- Exactly the limit. -/
theorem witness_AllocAppendsZeroBytes :
    ((start [] 10 0).setHeap ⟨10, []⟩).heap.wf = true ∧ 0 ≤ sval ((start [] 10 0).x 0) ∧
    ((start [] 10 0).setHeap ⟨10, []⟩).heap.len + (sval ((start [] 10 0).x 0)).toNat ≤ 20 := by decide

/-- The negative count, and one byte past a limit. -/
theorem witness_AllocFaults : sval ((start [] 0xFFFFFFFF 0).x 0) < 0 ∧
    ((19 : Nat) : Int) < (((start [] 10 0).setHeap ⟨10, []⟩).heap.len : Int) + sval ((start [] 10 0).x 0) := by decide

theorem witness_BadRegisterFaults : ¬(Instr.jeq 32).WellFormed := by decide

theorem witness_FaultsAreAllOrNothing : ∃ t, exec (.div 0 1 2) (start [] 5 0) = .next t ∧
    t.out = some (.halted (.fault .divisionByZero)) := ⟨_, rfl, rfl⟩

theorem witness_FaultsByInstruction : ∃ t, exec (.add 0 1 2) (start [] 5 0) = .next t := ⟨_, rfl⟩

theorem witness_OnlyTheDestinationChanges : (∃ t, exec (.add 0 1 2) (start [] 5 7) = .next t) ∧
    regByte 1 ∉ writeSet (.add 0 1 2) := ⟨⟨_, rfl⟩, by decide⟩

/-- The three clauses: an INC, an INC, and a comparison over a FLAG of 1. -/
theorem witness_FlagIsWrittenByComparisonsReadByJumps :
    (∃ t, exec (.inc 0) (start [] 5 7) = .next t) ∧ isComparison (Instr.inc 0).op = false ∧
    isConditional (Instr.inc 0).op = false ∧ (∃ t, exec (.gt 0 1) ((start [] 5 7).setFlag true) = .next t) ∧
    isComparison (Instr.gt 0 1).op = true ∧ (Instr.gt 0 1).WellFormed :=
  ⟨⟨_, rfl⟩, rfl, rfl, ⟨_, rfl⟩, rfl, by decide⟩

theorem witness_RemIsWrittenByDivReadByNone :
    ((∃ t, exec (.mul 0 1 2) (start [] 5 7) = .next t) ∧ (Instr.mul 0 1 2).op ≠ .div) ∧
    sval ((start [] 5 7).x 1) ≠ 0 ∧ ¬(sval ((start [] 5 7).x 0) = -2 ^ 31 ∧ sval ((start [] 5 7).x 1) = -1) ∧
    ∃ t, exec (.div (regByte 0) (regByte 1) (regByte 2)) (start [] 5 7) = .next t :=
  ⟨⟨⟨_, rfl⟩, by decide⟩, by decide, by decide, ⟨_, rfl⟩⟩

/-- An ALLOC, with an old byte and another heap of its length. -/
theorem witness_HeapBytesAreNeitherReadNorWritten :
    (∃ t, exec (.alloc 0) ((start [] 0 0).setHeap ⟨1, []⟩) = .next t) ∧ ((start [] 0 0).setHeap ⟨1, []⟩).heap.wf = true ∧
    (Memory.mk 1 [(0, 9)]).len = ((start [] 0 0).setHeap ⟨1, []⟩).heap.len := by
  obtain ⟨t, h, -⟩ := exec_answers (.alloc 0) ((start [] 0 0).setHeap ⟨1, []⟩)
  exact ⟨⟨t, h⟩, rfl, rfl⟩

theorem witness_ProgramIsNeverWritten : (∃ t, exec (.inc 0) (start [0x12, 0x00] 0 0) = .next t) ∧
    ∃ t, stepWith OpcodeMap.default (start [0x12, 0x00] 0 0) = .next t := ⟨⟨_, rfl⟩, ⟨_, rfl⟩⟩

theorem witness_OnlyJumpsWritePc : (∃ t, exec (.eq 0 1) (start [] 5 7) = .next t) ∧ isJump (Instr.eq 0 1).op = false :=
  ⟨⟨_, rfl⟩, rfl⟩

/-- Other registers than the two that are read differ. -/
theorem witness_OnlyTheReadSetMatters : (∃ t, exec (.add 0 1 2) (start [] 5 7) = .next t) ∧
    ∀ r : RegIndex, regByte r ∈ readSet (.add 0 1 2) → ((start [] 5 7).setX 3 9).regs[r.val] = (start [] 5 7).x r :=
  ⟨⟨_, rfl⟩, by decide⟩

theorem witness_StepRunsTheDecodedInstruction :
    ((start [0x12, 0x00] 0 0).fault = none ∧ (start [0x12, 0x00] 0 0).pc.toNat < (start [0x12, 0x00] 0 0).prog.len ∧
      decode (fetchBytes (start [0x12, 0x00] 0 0)) = .ok (.inc 0, [])) ∧
    (start [0x32, 0x00] 0 0).prog.Holds (start [0x32, 0x00] 0 0).pc.toNat (encodeWith (movedMap 0x20) (.inc 0)) :=
  ⟨by decide, by unfold Memory.Holds; decide⟩

/-- pc at the end, and past it. -/
theorem witness_EndOfProgramHalts : ((start [0x00] 0 0).setPc 1).fault = none ∧
    ((start [0x00] 0 0).setPc 1).prog.len ≤ ((start [0x00] 0 0).setPc 1).pc.toNat ∧
    ((start [0x00] 0 0).setPc 2).prog.len ≤ ((start [0x00] 0 0).setPc 2).pc.toNat := by decide

theorem witness_IllegalOpcodeFaults : (start [0x14] 0 0).fault = none ∧
    (start [0x14] 0 0).prog.read (start [0x14] 0 0).pc.toNat = some 0x14 ∧ opcodeOfByte OpcodeMap.default 0x14 = none := by decide

/-- One operand byte missing. -/
theorem witness_UnderrunFaults : (start [0x25, 0x00, 0x01] 0 0).fault = none ∧
    (start [0x25, 0x00, 0x01] 0 0).prog.read (start [0x25, 0x00, 0x01] 0 0).pc.toNat = some (movedMap 0x20 .div) ∧
    (start [0x25, 0x00, 0x01] 0 0).prog.len < (start [0x25, 0x00, 0x01] 0 0).pc.toNat + Op.div.size := by decide

/-- The fault clauses of LoadWritesTheImmediate, IncDecWrap and EqNeqGtLtSetTheFlag: the least bad index, and each
encoding one byte short. -/
theorem witness_step_faults : 32 ≤ (32 : Byte).toNat ∧
    (start [0x21, 0x00, 0x01] 0 0).prog.read (start [0x21, 0x00, 0x01] 0 0).pc.toNat = some (movedMap 0x20 .load) ∧
    (start [0x21, 0x00, 0x01] 0 0).prog.len < (start [0x21, 0x00, 0x01] 0 0).pc.toNat + 4 ∧
    (start [0x33] 0 0).prog.read (start [0x33] 0 0).pc.toNat = some (movedMap 0x20 .dec) ∧
    (start [0x33] 0 0).prog.len < (start [0x33] 0 0).pc.toNat + 2 ∧
    (start [0x2B, 0x00] 0 0).prog.read (start [0x2B, 0x00] 0 0).pc.toNat = some (movedMap 0x20 .gt) ∧
    (start [0x2B, 0x00] 0 0).prog.len < (start [0x2B, 0x00] 0 0).pc.toNat + 3 ∧
    (start [0x21, 0x00, 0x01] 0 0).fault = none ∧ (start [0x33] 0 0).fault = none ∧
    (start [0x2B, 0x00] 0 0).fault = none := by decide

theorem witness_LatchedFaultIsSticky : (State.reset.raised .divisionByZero).fault = some .divisionByZero := rfl

theorem witness_StepIsTheAlgorithm : (start [0x12, 0x00] 0 0).prog.len < 2 ^ 64 := by decide

theorem witness_OpcodeMapOnlyRelabels :
    (start [0x32, 0x00] 0 0).prog.Holds (start [0x32, 0x00] 0 0).pc.toNat (encodeWith (movedMap 0x20) (.inc 0)) ∧
    (Memory.ofBytes [0x52, 0x00]).Holds (start [0x32, 0x00] 0 0).pc.toNat (encodeWith (movedMap 0x40) (.inc 0)) ∧
    ∃ t, stepWith (movedMap 0x20) (start [0x32, 0x00] 0 0) = .next t :=
  ⟨by unfold Memory.Holds; decide, by unfold Memory.Holds; decide, ⟨_, rfl⟩⟩

/-- A state with a program, off reset, meets the invariant, and its step answers. -/
theorem witness_StepKeepsTheInvariant :
    Inv Config.heapLimit (start [0x02, 0x00, 0x01, 0x02] 5 7) ∧
    ∃ t, stepWith OpcodeMap.default (start [0x02, 0x00, 0x01, 0x02] 5 7) = .next t :=
  ⟨⟨by decide, by decide, by decide, by decide, Nat.zero_le _, by simp [start, State.reset, State.setX, Memory.read],
    by simp [start, State.reset, State.setX]⟩, ⟨_, rfl⟩⟩

/-- Each of the three commands, from reset under a limit of one byte: a `load` and an `append_byte` that reach the limit,
and a step. -/
theorem witness_CommandsKeepTheInvariant : Inv Config.heapLimit State.reset ∧ State.reset.prog.len ≤ 1 ∧
    ∀ c ∈ [Command.load [0x00], .appendByte 0x00, .step],
      ∃ t, commandWith 1 OpcodeMap.default c State.reset = .next t := by
  refine ⟨⟨by decide, by decide, by decide, by decide, Nat.zero_le _, by simp [State.reset, Memory.read],
    by simp [State.reset]⟩, by decide, fun c hc => ?_⟩
  simp only [List.mem_cons, List.not_mem_nil, or_false] at hc
  obtain rfl | rfl | rfl := hc <;> exact ⟨_, rfl⟩

theorem witness_EqualBytesAreEqualMemories :
    (Memory.ofBytes [7]).wf = true ∧ ((Memory.mk 1 [(0, 9)]).write 0 7).wf = true ∧
    (Memory.ofBytes [7]).len = ((Memory.mk 1 [(0, 9)]).write 0 7).len ∧
    ∀ a, (Memory.ofBytes [7]).read a = ((Memory.mk 1 [(0, 9)]).write 0 7).read a :=
  ⟨by decide, by decide, by decide, fun _ => rfl⟩

/-- `load` at the limit and one past it. -/
theorem witness_LoadReplacesTheProgram : ([0x00, 0x00] : List Byte).length ≤ 2 ∧ 1 < ([0x00, 0x00] : List Byte).length := by decide

/-- `append_byte` just below the limit and at it. -/
theorem witness_AppendPushesOneByte : (start [0x00] 0 0).prog.wf = true ∧ (start [0x00] 0 0).prog.len < 2 ∧
    1 ≤ (start [0x00] 0 0).prog.len := by decide

/-- Both self-jumps: JMP by 0 at offset 0, and JMPB by 2. -/
theorem witness_SelfJumpsNeverHalt :
    (start [0x26, 0x00] 0 0).fault = none ∧ (start [0x26, 0x00] 0 0).pc.toNat ≤ 2 ^ 32 ∧
    ((start [0x26, 0x00] 0 0).prog.Holds (start [0x26, 0x00] 0 0).pc.toNat (encodeWith (movedMap 0x20) (.jmp (regByte 0))) ∧
      sval ((start [0x26, 0x00] 0 0).x 0) = (start [0x26, 0x00] 0 0).pc.toNat) ∧
    ((start [0x28, 0x00] 2 0).prog.Holds (start [0x28, 0x00] 2 0).pc.toNat (encodeWith (movedMap 0x20) (.jmpb (regByte 0))) ∧
      sval ((start [0x28, 0x00] 2 0).x 0) = 2) :=
  ⟨rfl, by decide, ⟨by unfold Memory.Holds; decide, by decide⟩, ⟨by unfold Memory.Holds; decide, by decide⟩⟩

end Sys2Proof.Tests
end

section
/-! # The state: frames, noninterference, the invariant and the host's commands (spec/10_state.md) -/

namespace Sys2Proof.Machine

open Sys2Proof

/-! ## What a next state keeps, read off the inversion of `exec` -/

section
variable {i : Instr} {s t : State}

theorem ExecNext.prog_eq (h : ExecNext i s t) : t.prog = s.prog := by
  cases h <;> rfl

theorem ExecNext.x_eq (h : ExecNext i s t) {r : RegIndex} (hr : regByte r ∉ writeSet i) : t.x r = s.x r := by
  cases h with
  | wroteRegister d v _ dest =>
    have hne : r ≠ d := fun e => hr (e ▸ dest)
    simp [State.x_setX_ne s d r v hne]
  | divided d q _ dest =>
    have hne : r ≠ d := fun e => hr (e ▸ dest)
    simp [State.x_setX_ne s d r q hne]
  | _ => rfl

theorem ExecNext.flag_eq (h : ExecNext i s t) (hc : isComparison i.op = false) : t.flag = s.flag := by
  cases h with
  | compared b isComp => simp [hc] at isComp
  | _ => rfl

theorem ExecNext.rem_eq (h : ExecNext i s t) (hd : i.op ≠ .div) : t.rem = s.rem := by
  cases h with
  | divided d q r dest isDiv => exact absurd isDiv hd
  | _ => rfl

theorem ExecNext.pc_eq (h : ExecNext i s t) (hj : isJump i.op = false) : t.pc = s.pc := by
  cases h with
  | jumped t isJ => simp [hj] at isJ
  | _ => rfl

/-- A jump goes at most 2^31 past the pc it starts from (R29). -/
theorem ExecNext.pc_le (h : ExecNext i s t) (hpc : s.pc.toNat ≤ 2 ^ 32) : t.pc.toNat ≤ s.pc.toNat + 2 ^ 31 := by
  cases h with
  | jumped u isJ nonneg bounded =>
    have hu := toNat_ofInt_target nonneg (by omega)
    simp only [State.answer_pc, State.setPc_pc]
    omega
  | _ => exact Nat.le_add_right _ _

/-- The heap is the old one with zero bytes put at its end, none of them where no ALLOC ran (R181). -/
theorem ExecNext.heap_grown (h : ExecNext i s t) (hs : s.heap.len ≤ Config.heapLimit) :
    ∃ n, t.heap = s.heap.grow n ∧ s.heap.len + n ≤ Config.heapLimit := by
  cases h with
  | grew n isAlloc fits => exact ⟨n, rfl, fits⟩
  | _ => exact ⟨0, rfl, hs⟩

/-- A fault latched afterwards is an old one or the one returned (R193). -/
theorem ExecNext.latch (h : ExecNext i s t) :
    t.fault = s.fault ∨ ∃ f, t.fault = some f ∧ t.out = some (.halted (.fault f)) := by
  cases h with
  | badRegister => exact .inr ⟨_, rfl, rfl⟩
  | faulted f => exact .inr ⟨f, rfl, rfl⟩
  | _ => exact .inl rfl

end

/-! ## The arbiter's fault -/

theorem withRegs2_bad {ra rb : Byte} (h : 32 ≤ ra.toNat ∨ 32 ≤ rb.toNat) (s : State)
    (use : RegIndex → RegIndex → Host.Outcome State Fault Refusal) :
    withRegs2 ra rb s use = .next (s.raised .invalidRegisterIndex) := by
  rcases withRegs2_cases ra rb s use with ⟨a, b, rfl, rfl, -⟩ | ⟨-, e⟩
  · simp only [toNat_regByte] at h
    omega
  · exact e

theorem withRegs3_bad {ra rb rd : Byte} (h : 32 ≤ ra.toNat ∨ 32 ≤ rb.toNat ∨ 32 ≤ rd.toNat) (s : State)
    (use : RegIndex → RegIndex → RegIndex → Host.Outcome State Fault Refusal) :
    withRegs3 ra rb rd s use = .next (s.raised .invalidRegisterIndex) := by
  rcases withRegs3_cases ra rb rd s use with ⟨a, b, d, rfl, rfl, rfl, -⟩ | ⟨-, e⟩
  · simp only [toNat_regByte] at h
    omega
  · exact e

/-- Every meaning stands under the arbiter over all its register operands (R22, R116). -/
theorem exec_bad {i : Instr} (h : ¬i.WellFormed) (s : State) : exec i s = .next (s.raised .invalidRegisterIndex) := by
  have h' : ∃ b ∈ i.regOperands, 32 ≤ b.toNat := by simpa [Instr.WellFormed, Byte.IsRegister] using h
  cases i with
  | hlt => simp [Instr.regOperands] at h'
  | load r | jmp r | jmpf r | jmpb r | jeq r | jneq r | alloc r | inc r | dec r =>
    exact withReg_bad (by simpa [Instr.regOperands] using h') s _
  | add ra rb rd | sub ra rb rd | mul ra rb rd | div ra rb rd =>
    exact withRegs3_bad (by simpa [Instr.regOperands] using h') s _
  | eq ra rb | neq ra rb | gt ra rb | lt ra rb | gtq ra rb | ltq ra rb =>
    exact withRegs2_bad (by simpa [Instr.regOperands] using h') s _

/-! ## One instruction in two states that agree on what it reads -/

/-- The same update of both states, whichever an instruction may make, gives related states. -/
structure UpdatesRelate (R : State → State → Prop) (s s' : State) : Prop where
  raised : ∀ f, R (s.raised f) (s'.raised f)
  answered : ∀ r, R (s.answer r) (s'.answer r)
  wrote : ∀ d v, R ((s.setX d v).answer .continue) ((s'.setX d v).answer .continue)
  divided : ∀ d q r, R (((s.setX d q).setRem r).answer .continue) (((s'.setX d q).setRem r).answer .continue)
  compared : ∀ b, R ((s.setFlag b).answer .continue) ((s'.setFlag b).answer .continue)
  jumped : ∀ p, R ((s.setPc p).answer .continue) ((s'.setPc p).answer .continue)
  grew : ∀ n, R ((s.setHeap (s.heap.grow n)).answer .continue) ((s'.setHeap (s'.heap.grow n)).answer .continue)

section
variable {R : State → State → Prop} {s s' : State}

theorem withRegs2_related {ra rb : Byte} {use use' : RegIndex → RegIndex → Host.Outcome State Fault Refusal}
    (bad : R (s.raised .invalidRegisterIndex) (s'.raised .invalidRegisterIndex))
    (good : ∀ a b, ra = regByte a → rb = regByte b → Related R (use a b) (use' a b)) :
    Related R (withRegs2 ra rb s use) (withRegs2 ra rb s' use') :=
  withReg_related _ _ _ _ _ bad fun a ha => withReg_related _ _ _ _ _ bad fun b hb => good a b ha hb

theorem withRegs3_related {ra rb rd : Byte}
    {use use' : RegIndex → RegIndex → RegIndex → Host.Outcome State Fault Refusal}
    (bad : R (s.raised .invalidRegisterIndex) (s'.raised .invalidRegisterIndex))
    (good : ∀ a b d, ra = regByte a → rb = regByte b → Related R (use a b d) (use' a b d)) :
    Related R (withRegs3 ra rb rd s use) (withRegs3 ra rb rd s' use') :=
  withReg_related _ _ _ _ _ bad fun a ha => withReg_related _ _ _ _ _ bad fun b hb =>
    withReg_related _ _ _ _ _ bad fun d _ => good a b d ha hb

theorem arithWith_related (f : Int → Int → Int) {ra rb : Byte} (rd : Byte) (h : UpdatesRelate R s s')
    (reads : ∀ r, regByte r ∈ [ra, rb] → s'.x r = s.x r) :
    Related R (arithWith f ra rb rd s) (arithWith f ra rb rd s') := by
  refine withRegs3_related (h.raised _) fun a b d ha hb => ?_
  rw [reads a (by simp [ha]), reads b (by simp [hb])]
  exact h.wrote d _

theorem execDiv_related {ra rb : Byte} (rd : Byte) (h : UpdatesRelate R s s')
    (reads : ∀ r, regByte r ∈ [ra, rb] → s'.x r = s.x r) :
    Related R (execDiv ra rb rd s) (execDiv ra rb rd s') := by
  refine withRegs3_related (h.raised _) fun a b d ha hb => ?_
  rw [reads a (by simp [ha]), reads b (by simp [hb])]
  cases divide (sval (s.x a)) (sval (s.x b)) with
  | error f => exact h.raised f
  | ok p => exact h.divided d p.1 p.2

theorem compareWith_related (rel : Int → Int → Bool) {ra rb : Byte} (h : UpdatesRelate R s s')
    (reads : ∀ r, regByte r ∈ [ra, rb] → s'.x r = s.x r) :
    Related R (compareWith rel ra rb s) (compareWith rel ra rb s') := by
  refine withRegs2_related (h.raised _) fun a b ha hb => ?_
  rw [reads a (by simp [ha]), reads b (by simp [hb])]
  exact h.compared _

theorem stepReg_related (k : Int) {r : Byte} (h : UpdatesRelate R s s')
    (reads : ∀ a, regByte a ∈ [r] → s'.x a = s.x a) : Related R (stepReg k r s) (stepReg k r s') := by
  refine withReg_related _ _ _ _ _ (h.raised _) fun a ha => ?_
  rw [reads a (by simp [ha])]
  exact h.wrote a _

/-- A jump whose target is the same in both states. -/
theorem withReg_jumpTo_related {r : Byte} {target target' : RegIndex → Int} (h : UpdatesRelate R s s')
    (same : ∀ a, r = regByte a → target' a = target a) :
    Related R (withReg r s fun a => jumpTo (target a) s) (withReg r s' fun a => jumpTo (target' a) s') := by
  refine withReg_related _ _ _ _ _ (h.raised _) fun a ha => ?_
  rw [same a ha]
  exact jumpTo_related _ _ _ (h.raised _) h.jumped

theorem jumpIf_related (want : Bool) {r : Byte} (h : UpdatesRelate R s s')
    (reads : ∀ a, regByte a ∈ [r] → s'.x a = s.x a) (flag : s'.flag = s.flag) :
    Related R (jumpIf want r s) (jumpIf want r s') := by
  refine withReg_related _ _ _ _ _ (h.raised _) fun a ha => ?_
  rw [reads a (by simp [ha]), flag]
  split
  · exact jumpTo_related _ _ _ (h.raised _) h.jumped
  · exact h.answered _

theorem execAlloc_related {r : Byte} (h : UpdatesRelate R s s')
    (reads : ∀ a, regByte a ∈ [r] → s'.x a = s.x a) (len : s'.heap.len = s.heap.len) :
    Related R (execAlloc r s) (execAlloc r s') := by
  refine withReg_related _ _ _ _ _ (h.raised _) fun a ha => ?_
  rw [reads a (by simp [ha])]
  exact growHeap_related _ _ _ _ len (h.raised _) h.grew

/-- An instruction depends on the registers of its read set, pc, the heap's length and, in a conditional jump, FLAG:
where two states agree on these, it makes the same update of both (R23, R31, R32). -/
theorem exec_related (i : Instr) (h : UpdatesRelate R s s') (reads : ∀ r, regByte r ∈ readSet i → s'.x r = s.x r)
    (pc : s'.pc = s.pc) (len : s'.heap.len = s.heap.len) (flag : isConditional i.op = true → s'.flag = s.flag) :
    Related R (exec i s) (exec i s') := by
  cases i with
  | hlt => exact h.answered _
  | load r imm => exact withReg_related _ _ _ _ _ (h.raised _) fun a _ => h.wrote a _
  | add ra rb rd | sub ra rb rd | mul ra rb rd => exact arithWith_related _ rd h reads
  | div ra rb rd => exact execDiv_related rd h reads
  | jmp r => exact withReg_jumpTo_related h fun a ha => by rw [reads a (by simp [readSet, ha])]
  | jmpf r | jmpb r => exact withReg_jumpTo_related h fun a ha => by rw [reads a (by simp [readSet, ha]), pc]
  | eq ra rb | neq ra rb | gt ra rb | lt ra rb | gtq ra rb | ltq ra rb => exact compareWith_related _ h reads
  | jeq r | jneq r => exact jumpIf_related _ h reads (flag rfl)
  | alloc r => exact execAlloc_related h reads len
  | inc r | dec r => exact stepReg_related _ h reads

/-- So where one of the two runs answers a next state, the other answers a related one. -/
theorem exec_related_next {i : Instr} {t : State} (ht : exec i s = .next t) (h : UpdatesRelate R s s')
    (reads : ∀ r, regByte r ∈ readSet i → s'.x r = s.x r) (pc : s'.pc = s.pc) (len : s'.heap.len = s.heap.len)
    (flag : isConditional i.op = true → s'.flag = s.flag) : ∃ t', exec i s' = .next t' ∧ R t t' :=
  Related.next (ht ▸ exec_related i h reads pc len flag)

end

/-! The relations at which the obligations use it: all but one field agrees. -/

/-- The states agree on all but FLAG. -/
def AgreeButFlag (t t' : State) : Prop := t' = { t with flag := t'.flag }

/-- The states agree on all but REM. -/
def AgreeButRem (t t' : State) : Prop := t' = { t with rem := t'.rem }

/-- The states agree on all but the registers, and each register holds the same value in both, or still what it held
before in `s` and in `regs`. -/
def AgreeButUnread (s : State) (regs : Vector Word 32) (t t' : State) : Prop :=
  t' = { t with regs := t'.regs } ∧ ∀ r : RegIndex, t'.x r = t.x r ∨ (t'.x r = regs[r.val] ∧ t.x r = s.x r)

theorem updatesRelate_flag (s : State) (b : Bool) : UpdatesRelate AgreeButFlag s { s with flag := b } :=
  ⟨fun _ => rfl, fun _ => rfl, fun _ _ => rfl, fun _ _ _ => rfl, fun _ => rfl, fun _ => rfl, fun _ => rfl⟩

theorem updatesRelate_rem (s : State) (v : Word) : UpdatesRelate AgreeButRem s { s with rem := v } :=
  ⟨fun _ => rfl, fun _ => rfl, fun _ _ => rfl, fun _ _ _ => rfl, fun _ => rfl, fun _ => rfl, fun _ => rfl⟩

theorem updatesRelate_out (s : State) (o : Option StepResult) : UpdatesRelate Eq s { s with out := o } :=
  ⟨fun _ => rfl, fun _ => rfl, fun _ _ => rfl, fun _ _ _ => rfl, fun _ => rfl, fun _ => rfl, fun _ => rfl⟩

/-- After one register is written alike in both states, it agrees and the others are left alone. -/
theorem x_setX_agree (s : State) (regs : Vector Word 32) (d : RegIndex) (v : Word) (r : RegIndex) :
    (State.setX { s with regs := regs } d v).x r = (s.setX d v).x r ∨
    ((State.setX { s with regs := regs } d v).x r = regs[r.val] ∧ (s.setX d v).x r = s.x r) := by
  by_cases h : r = d
  · subst h
    exact .inl (by simp)
  · exact .inr ⟨State.x_setX_ne _ d r v h, State.x_setX_ne s d r v h⟩

theorem updatesRelate_regs (s : State) (regs : Vector Word 32) :
    UpdatesRelate (AgreeButUnread s regs) s { s with regs := regs } where
  raised _ := ⟨rfl, fun _ => .inr ⟨rfl, rfl⟩⟩
  answered _ := ⟨rfl, fun _ => .inr ⟨rfl, rfl⟩⟩
  wrote d v := ⟨rfl, x_setX_agree s regs d v⟩
  divided d q _ := ⟨rfl, x_setX_agree s regs d q⟩
  compared _ := ⟨rfl, fun _ => .inr ⟨rfl, rfl⟩⟩
  jumped _ := ⟨rfl, fun _ => .inr ⟨rfl, rfl⟩⟩
  grew _ := ⟨rfl, fun _ => .inr ⟨rfl, rfl⟩⟩

/-- A comparison on registers writes FLAG from two registers, whatever the state. -/
theorem exec_comparison {i : Instr} (hc : isComparison i.op = true) (hw : i.WellFormed) :
    ∃ (rel : Int → Int → Bool) (a b : RegIndex), ∀ s : State,
      exec i s = .next ((s.setFlag (rel (sval (s.x a)) (sval (s.x b)))).answer .continue) := by
  cases i with
  | eq ra rb | neq ra rb | gt ra rb | lt ra rb | gtq ra rb | ltq ra rb =>
    obtain ⟨a, rfl⟩ := exists_regByte (hw ra (by simp [Instr.regOperands]))
    obtain ⟨b, rfl⟩ := exists_regByte (hw rb (by simp [Instr.regOperands]))
    exact ⟨_, a, b, compareWith_regByte _ a b⟩
  | _ => cases hc

/-- A division on registers that does not fault writes the quotient and the remainder (R135, R136). -/
theorem execDiv_regByte {s : State} {a b : RegIndex} (d : RegIndex) (h0 : sval (s.x b) ≠ 0)
    (h1 : ¬(sval (s.x a) = -2 ^ 31 ∧ sval (s.x b) = -1)) :
    execDiv (regByte a) (regByte b) (regByte d) s =
      .next (((s.setX d (wrap32 (tdiv (sval (s.x a)) (sval (s.x b))))).setRem
        (wrap32 (trem (sval (s.x a)) (sval (s.x b))))).answer .continue) := by
  simp [execDiv, withRegs3, divide_ok h0 h1, complete]

/-- No instruction reads the output (R37). -/
theorem exec_out (i : Instr) (s : State) (o : Option StepResult) : exec i { s with out := o } = exec i s := by
  obtain ⟨t, ht, -⟩ := exec_answers i s
  obtain ⟨t', ht', rfl⟩ := exec_related_next ht (updatesRelate_out s o) (fun _ _ => rfl) rfl rfl fun _ => rfl
  rw [ht, ht']

/-! ## Byte sequences -/

/-- Growth keeps a sequence of zero bytes one of zero bytes (R34, R181). -/
theorem Memory.zero_grow {m : Memory} (n : Nat) (hw : m.wf = true) (h0 : ∀ a b, m.read a = some b → b = 0) :
    ∀ a b, (m.grow n).read a = some b → b = 0 := by
  intro a b hb
  rcases lt_or_ge a m.len with ha | ha
  · exact h0 a b (m.read_grow_old n ha ▸ hb)
  · rw [m.read_grow_new n hw ha (Memory.lt_len_of_read _ hb)] at hb
    exact (Option.some.inj hb).symm

/-- The bytes of a list are the ones read. -/
theorem Memory.read_ofBytes (bs : List Byte) (a : Nat) : (Memory.ofBytes bs).read a = bs[a]? := by
  induction bs using List.reverseRecOn with
  | nil => exact Memory.read_empty a
  | append_singleton bs b ih =>
    have hpush : Memory.ofBytes (bs ++ [b]) = (Memory.ofBytes bs).push b := by simp [Memory.ofBytes]
    rw [hpush]
    rcases lt_trichotomy a bs.length with h | rfl | h
    · rw [Memory.read_push_old _ b (by simpa using h), ih, List.getElem?_append_left h]
    · simpa using Memory.read_push_new (Memory.ofBytes bs) b (Memory.wf_ofBytes bs)
    · rw [(Memory.read_eq_none_iff _ a).mpr (by simpa using h), List.getElem?_eq_none (by simpa using h)]

/-- The first cell is at the lowest address that holds more than an unlisted one. -/
theorem le_of_lookupCell_ne {lo hi a : Nat} {c : Host.Cell} {cs : List Host.Cell} (h : cellsOk lo hi (c :: cs) = true)
    (ha : lookupCell a (c :: cs) ≠ unlistedByte) : c.1 ≤ a := by
  obtain ⟨-, hhi, hne, hcs⟩ := (cellsOk_cons lo hi c cs).mp h
  by_contra hlt
  exact ha (lookupCell_below ((cellsOk_cons c.1 hi c cs).mpr ⟨le_rfl, hhi, hne, hcs⟩) (not_le.mp hlt))

/-- The cells after the first, by what the whole list reads as. -/
theorem lookupCell_tail {lo hi : Nat} {c : Host.Cell} {cs : List Host.Cell} (h : cellsOk lo hi (c :: cs) = true)
    (a : Nat) : lookupCell a cs = if a = c.1 then unlistedByte else lookupCell a (c :: cs) := by
  obtain ⟨-, -, -, hcs⟩ := (cellsOk_cons lo hi c cs).mp h
  split_ifs with ha
  · exact lookupCell_below hcs (by omega)
  · rw [lookupCell, if_neg (Ne.symm ha)]

/-- The first cell is read at its own address and is listed. -/
theorem lookupCell_head_ne {lo hi : Nat} {c : Host.Cell} {cs : List Host.Cell} (h : cellsOk lo hi (c :: cs) = true) :
    lookupCell c.1 (c :: cs) ≠ unlistedByte := by
  obtain ⟨-, -, hne, -⟩ := (cellsOk_cons lo hi c cs).mp h
  simpa [lookupCell] using hne

/-- In canonical form cells that read alike are alike. -/
theorem cells_eq_of_lookupCell {hi : Nat} {cs : List Host.Cell} : ∀ {ds : List Host.Cell} {lo lo' : Nat},
    cellsOk lo hi cs = true → cellsOk lo' hi ds = true → (∀ a, lookupCell a cs = lookupCell a ds) → cs = ds := by
  induction cs with
  | nil =>
    intro ds lo lo' _ hd heq
    cases ds with
    | nil => rfl
    | cons d ds => exact absurd (heq d.1).symm (lookupCell_head_ne hd)
  | cons c cs ih =>
    intro ds lo lo' hc hd heq
    cases ds with
    | nil => exact absurd (heq c.1) (lookupCell_head_ne hc)
    | cons d ds =>
      have haddr : c.1 = d.1 :=
        le_antisymm (le_of_lookupCell_ne hc (heq d.1 ▸ lookupCell_head_ne hd))
          (le_of_lookupCell_ne hd (heq c.1 ▸ lookupCell_head_ne hc))
      have hbyte : c.2 = d.2 := by simpa [lookupCell, haddr] using heq c.1
      obtain ⟨-, -, -, hcs⟩ := (cellsOk_cons _ _ _ _).mp hc
      obtain ⟨-, -, -, hds⟩ := (cellsOk_cons _ _ _ _).mp hd
      have htail : cs = ds := ih hcs hds fun a => by rw [lookupCell_tail hc, lookupCell_tail hd, haddr, heq]
      rw [Prod.ext haddr hbyte, htail]

theorem Memory.eq_of_read_eq {p q : Memory} (hp : p.wf = true) (hq : q.wf = true) (hlen : p.len = q.len)
    (hread : ∀ a, p.read a = q.read a) : p = q := by
  have hq' : cellsOk 0 p.len q.cells = true := hlen ▸ hq
  have hcells : p.cells = q.cells := cells_eq_of_lookupCell hp hq' fun a => by
    rcases lt_or_ge a p.len with ha | ha
    · simpa [Memory.read, ha, ← hlen] using hread a
    · rw [lookupCell_above hp ha, lookupCell_above hq' ha]
  cases p
  cases q
  exact congrArg₂ Memory.mk hlen hcells

/-! ## The invariant -/

/-- An instruction's bytes are among those it was decoded from. -/
theorem size_le_of_decodeWith {m : OpcodeMap} {bs rest : List Byte} {i : Instr}
    (h : decodeWith m bs = .ok (i, rest)) : i.size ≤ bs.length := by
  cases bs with
  | nil => simp [decodeWith] at h
  | cons b bs =>
    simp only [decodeWith] at h
    split at h
    · cases h
    · rename_i op _
      split at h
      · cases h
      · rename_i o rest' hparse
        cases h
        have hlen : ¬bs.length < operandBytes op.spec := by simp [← parseOperands_eq_none, hparse]
        simp only [Instr.size, Instr.op_build, Op.size, List.length_cons]
        omega

theorem toNat_pc_advance {s : State} {n : Nat} (h : s.pc.toNat + n < 2 ^ 64) :
    (s.advance n).pc.toNat = s.pc.toNat + n := by
  rw [State.advance_pc, BitVec.toNat_add, BitVec.toNat_ofNat, Nat.add_mod_mod, Nat.mod_eq_of_lt h]

/-- A state that keeps PROG, and HEAP but for zero bytes at its end, meets the invariant with the one before. -/
theorem inv_of_grown {limit n : Nat} {s t : State} (h : Inv limit s) (hprog : t.prog = s.prog)
    (hheap : t.heap = s.heap.grow n) (hfit : s.heap.len + n ≤ limit) (hpc : t.pc.toNat ≤ 2 ^ 32 + 2 ^ 31)
    (hlatch : ∀ f, t.fault = some f → t.out = some (.halted (.fault f))) : Inv limit t where
  prog_canonical := hprog ▸ h.prog_canonical
  heap_canonical := hheap ▸ s.heap.wf_grow n h.heap_canonical
  prog_bounded := hprog ▸ h.prog_bounded
  pc_bounded := hpc
  heap_bounded := hheap ▸ hfit
  heap_zero := hheap ▸ Memory.zero_grow n h.heap_canonical h.heap_zero
  latch_answered := hlatch

/-- A state with PROG and HEAP as they were meets the invariant with the one before. -/
theorem inv_of_buffers_eq {limit : Nat} {s t : State} (h : Inv limit s) (hprog : t.prog = s.prog)
    (hheap : t.heap = s.heap) (hpc : t.pc.toNat ≤ 2 ^ 32 + 2 ^ 31)
    (hlatch : ∀ f, t.fault = some f → t.out = some (.halted (.fault f))) : Inv limit t :=
  inv_of_grown (n := 0) h hprog hheap h.heap_bounded hpc hlatch

/-- A fetch that ends within the program moves pc no further than 2^32. -/
theorem inv_advance {limit n : Nat} {s : State} (h : Inv limit s) (hn : s.pc.toNat + n ≤ s.prog.len) :
    Inv limit (s.advance n) ∧ (s.advance n).pc.toNat ≤ 2 ^ 32 := by
  have hlen := h.prog_bounded
  have hpc := toNat_pc_advance (s := s) (n := n) (by omega)
  exact ⟨inv_of_buffers_eq h rfl rfl (by omega) h.latch_answered, by omega⟩

/-- Every instruction keeps the invariant where the fetch has left pc within the program's bound. -/
theorem ExecNext.inv {i : Instr} {s t : State} (h : ExecNext i s t) (hs : Inv Config.heapLimit s)
    (hpc : s.pc.toNat ≤ 2 ^ 32) (hrun : Running s) : Inv Config.heapLimit t := by
  obtain ⟨n, hheap, hfit⟩ := h.heap_grown hs.heap_bounded
  have hjump := h.pc_le hpc
  refine inv_of_grown hs h.prog_eq hheap hfit (by omega) fun f hf => ?_
  rcases h.latch with hkept | ⟨g, hg, hout⟩
  · rw [hkept, hrun] at hf
    cases hf
  · rw [hg] at hf
    cases hf
    exact hout

theorem stepWith_inv {m : OpcodeMap} {s t : State} (hs : Inv Config.heapLimit s) (ht : stepWith m s = .next t) :
    Inv Config.heapLimit t := by
  rcases stepWith_cases m s with ⟨f, hf, e⟩ | ⟨hf, -, e⟩ | ⟨f, -, hlt, -, e⟩ | ⟨i, rest, hf, hlt, hd, e⟩ <;>
    rw [e] at ht
  · cases ht
    exact inv_of_buffers_eq hs rfl rfl hs.pc_bounded (by simp [hf])
  · cases ht
    exact inv_of_buffers_eq hs rfl rfl hs.pc_bounded (by simp [hf])
  · cases ht
    obtain ⟨ha, -⟩ := inv_advance (n := 1) hs hlt
    exact inv_of_buffers_eq ha rfl rfl ha.pc_bounded (by simp)
  · have hsize := size_le_of_decodeWith hd
    rw [length_fetchBytes] at hsize
    obtain ⟨ha, hpc⟩ := inv_advance (n := i.size) hs (by omega)
    exact (exec_next ht).inv ha hpc hf

/-- No step writes the program (R62). -/
theorem stepWith_prog {m : OpcodeMap} {s t : State} (ht : stepWith m s = .next t) : t.prog = s.prog := by
  rcases stepWith_cases m s with ⟨f, -, e⟩ | ⟨-, -, e⟩ | ⟨f, -, -, -, e⟩ | ⟨i, rest, -, -, -, e⟩ <;> rw [e] at ht
  · cases ht
    rfl
  · cases ht
    rfl
  · cases ht
    rfl
  · exact (exec_next ht).prog_eq

theorem inv_reset (limit : Nat) : Inv limit State.reset where
  prog_canonical := rfl
  heap_canonical := rfl
  prog_bounded := Nat.zero_le _
  pc_bounded := Nat.zero_le _
  heap_bounded := Nat.zero_le _
  heap_zero a b h := by simp [State.reset, Memory.read] at h
  latch_answered f h := by simp [State.reset] at h

/-! ## The host's commands -/

theorem loadWith_inv {heapLimit limit : Nat} {bytes : List Byte} {s t : State} (hlimit : limit ≤ 2 ^ 32)
    (hs : Inv heapLimit s) (ht : loadWith limit bytes s = .next t) : Inv heapLimit t ∧ t.prog.len ≤ limit := by
  rcases loadWith_cases limit bytes s with ⟨hlen, e⟩ | ⟨-, e⟩ <;> rw [e] at ht <;> cases ht
  have hlen' : (Memory.ofBytes bytes).len ≤ limit := by simpa using hlen
  exact ⟨{ hs with
    prog_canonical := Memory.wf_ofBytes bytes
    prog_bounded := hlen'.trans hlimit
    pc_bounded := Nat.zero_le _
    latch_answered := by simp }, hlen'⟩

theorem appendWith_inv {heapLimit limit : Nat} {b : Byte} {s t : State} (hlimit : limit ≤ 2 ^ 32)
    (hs : Inv heapLimit s) (ht : appendWith limit b s = .next t) : Inv heapLimit t ∧ t.prog.len ≤ limit := by
  rcases appendWith_cases limit b s with ⟨hlen, e⟩ | ⟨-, e⟩ <;> rw [e] at ht <;> cases ht
  have hlen' : (s.prog.push b).len ≤ limit := hlen
  exact ⟨{ hs with
    prog_canonical := s.prog.wf_push b hs.prog_canonical
    prog_bounded := hlen'.trans hlimit }, hlen'⟩

theorem commandWith_inv {limit : Nat} {m : OpcodeMap} {c : Command} {s t : State} (hlimit : limit ≤ 2 ^ 32)
    (hs : Inv Config.heapLimit s) (hlen : s.prog.len ≤ limit) (ht : commandWith limit m c s = .next t) :
    Inv Config.heapLimit t ∧ t.prog.len ≤ limit := by
  cases c with
  | load bytes => exact loadWith_inv hlimit hs ht
  | appendByte b => exact appendWith_inv hlimit hs ht
  | step => exact ⟨stepWith_inv hs ht, stepWith_prog ht ▸ hlen⟩

/-- A session keeps the invariant and the limit from every state that meets them. -/
theorem session_inv (m : OpcodeMap) (cs : List Command) : ∀ {s : State}, Inv Config.heapLimit s →
    s.prog.len ≤ Config.progLimit →
    Inv Config.heapLimit (session m cs s) ∧ (session m cs s).prog.len ≤ Config.progLimit := by
  induction cs with
  | nil => exact fun hs hlen => ⟨hs, hlen⟩
  | cons c cs ih =>
    intro s hs hlen
    rw [session]
    cases hc : command m c s with
    | next t =>
      obtain ⟨ht, hlen'⟩ := commandWith_inv Config.progLimit_le hs hlen hc
      exact ih ht hlen'
    | fault r => exact ih hs hlen
    | refused r => exact ih hs hlen

/-- The status read, as a function of the latch alone (R36). -/
theorem hostRead_status (s : State) :
    hostRead .status s = some (s.fault.elim 0 fun f => f.code.toNat) := by
  cases h : s.fault <;> simp [hostRead, State.status, h]

/-! ## The obligations of spec/10_state.md -/

/-- Settles O47, by the cases of a step (R194): a fetch within the program leaves pc at most 2^32, from where an
instruction's own inversion gives every field. -/
theorem stepKeepsTheInvariant : Obligations.StepKeepsTheInvariant :=
  fun _ _ _ hs ht => stepWith_inv hs ht

/-- Settles O55, one lemma for each command. -/
theorem commandsKeepTheInvariant : Obligations.CommandsKeepTheInvariant :=
  fun _ _ _ _ _ hlimit hs hlen ht => commandWith_inv hlimit hs hlen ht

/-- Settles O27, by the arbiter that stands around every meaning. -/
theorem badRegisterFaults : Obligations.BadRegisterFaults :=
  fun _ s h => exec_bad h s

/-- Settles O30, by the inversion of `exec`. -/
theorem onlyTheDestinationChanges : Obligations.OnlyTheDestinationChanges :=
  fun _ _ _ ht _ hr => (exec_next ht).x_eq hr

/-- Settles O31: the frame by the inversion of `exec`, the reading by running the instruction with both values of
FLAG. -/
theorem flagIsWrittenByComparisonsReadByJumps : Obligations.FlagIsWrittenByComparisonsReadByJumps := by
  refine ⟨fun i s t ht hc => (exec_next ht).flag_eq hc, fun i s t b ht hj => ?_, fun i s t b ht hc hw => ?_,
    fun s => rfl⟩
  · exact exec_related_next ht (updatesRelate_flag s b) (fun _ _ => rfl) rfl rfl (by simp [hj])
  · obtain ⟨rel, a, b', he⟩ := exec_comparison hc hw
    rw [← ht, he, he]
    rfl

/-- Settles O32: the frame by the inversion of `exec`, the reading by running the instruction with both values of
REM. -/
theorem remIsWrittenByDivReadByNone : Obligations.RemIsWrittenByDivReadByNone := by
  refine ⟨fun i s t ht hd => (exec_next ht).rem_eq hd, fun i s t v ht => ?_, fun s t a b d v h0 h1 ht => ?_,
    fun s => rfl⟩
  · exact exec_related_next ht (updatesRelate_rem s v) (fun _ _ => rfl) rfl rfl fun _ => rfl
  · rw [← ht]
    exact (execDiv_regByte (s := { s with rem := v }) d h0 h1).trans (execDiv_regByte d h0 h1).symm

/-- Settles O35, by the inversion of `exec`. -/
theorem onlyJumpsWritePc : Obligations.OnlyJumpsWritePc :=
  fun _ _ _ ht hj => (exec_next ht).pc_eq hj

/-- Settles O36: both runs make the same update, since they agree on the registers read. -/
theorem onlyTheReadSetMatters : Obligations.OnlyTheReadSetMatters :=
  fun _ s _ regs ht hr => exec_related_next ht (updatesRelate_regs s regs) hr rfl rfl fun _ => rfl

/-- Settles O48, by induction on the commands from any state that meets the invariant. -/
theorem sessionsKeepTheInvariant : Obligations.SessionsKeepTheInvariant :=
  fun m cs => session_inv m cs (inv_reset _) (Nat.zero_le _)

/-- Settles O49, by induction on the cells: the first ones are at the lowest address listed. -/
theorem equalBytesAreEqualMemories : Obligations.EqualBytesAreEqualMemories :=
  fun _ _ hp hq hlen hread => Memory.eq_of_read_eq hp hq hlen hread

/-- Settles O50: the bytes put at the end one after the other are the bytes read, and the limit decides. -/
theorem loadReplacesTheProgram : Obligations.LoadReplacesTheProgram := by
  refine fun limit bytes s => ⟨fun hlen => ?_, fun hlen => ?_⟩
  · exact ⟨_, Memory.wf_ofBytes bytes, Memory.read_ofBytes bytes, if_pos hlen⟩
  · exact if_neg (not_le.mpr hlen)

/-- Settles O51: a byte put at the end is read there and leaves the others, and the limit decides. -/
theorem appendPushesOneByte : Obligations.AppendPushesOneByte := by
  refine fun limit b s hw => ⟨fun hlen => ?_, fun hlen => ?_⟩
  · exact ⟨s.prog.push b, s.prog.wf_push b hw, rfl, s.prog.read_push_new b hw,
      fun a ha => s.prog.read_push_old b ha, if_pos hlen⟩
  · exact if_neg (not_lt.mpr hlen)

/-- Settles O8, field by field. -/
theorem resetState : Obligations.ResetState :=
  ⟨State.x_reset, rfl, rfl, rfl, rfl, rfl, rfl⟩

/-- Settles O44, by the checks of a step: none of them looks at the output. -/
theorem outputIsNeverRead : Obligations.OutputIsNeverRead := by
  rintro m ⟨regs, pc, flag, rem, prog, heap, fault, out⟩ o
  cases fault with
  | some f => rfl
  | none =>
    refine if_ctx_congr Iff.rfl (fun _ => rfl) fun _ => ?_
    dsimp only [fetchBytes]
    cases decodeWith m (prog.slice pc.toNat longestInstr) with
    | error e => cases e <;> rfl
    | ok p => exact exec_out p.1 (State.advance ⟨regs, pc, flag, rem, prog, heap, none, out⟩ p.1.size) o

/-- Settles O46, field by field: both buffers are empty and nothing is latched. -/
theorem resetMeetsTheInvariant : Obligations.ResetMeetsTheInvariant := inv_reset

/-- Settles O54, code by code. -/
theorem statusReadsTheLatch : Obligations.StatusReadsTheLatch := by
  intro s
  simp only [hostRead_status]
  cases s.fault with
  | none => decide
  | some f => cases f <;> decide

end Sys2Proof.Machine
end

section
/-! # The buffers: no instruction reads or writes a heap byte or writes the program (spec/20_memory.md) -/

namespace Sys2Proof.Machine

open Sys2Proof

/-! ## The heap bytes after an instruction -/

/-- Whatever its length was, the heap is the old one with zero bytes put at its end (R181). -/
theorem ExecNext.heap_eq_grow {i : Instr} {s t : State} (h : ExecNext i s t) : ∃ n, t.heap = s.heap.grow n := by
  cases h with
  | grew n => exact ⟨n, rfl⟩
  | _ => exact ⟨0, rfl⟩

theorem ExecNext.heap_eq {i : Instr} {s t : State} (h : ExecNext i s t) (ha : i.op ≠ .alloc) : t.heap = s.heap := by
  cases h with
  | grew n isAlloc => exact absurd isAlloc ha
  | _ => rfl

theorem Memory.old_or_zero_of_read_grow {m : Memory} {n a : Nat} {b : Byte} (hw : m.wf = true)
    (hb : (m.grow n).read a = some b) : if a < m.len then m.read a = some b else b = 0 := by
  split_ifs with ha
  · rwa [m.read_grow_old n ha] at hb
  · rw [m.read_grow_new n hw (not_lt.mp ha) (Memory.lt_len_of_read _ hb)] at hb
    exact (Option.some.inj hb).symm

/-! ## One instruction with other heap bytes -/

/-- The states agree on all but the heap's bytes, the length of the heap included. -/
def AgreeButHeapBytes (t t' : State) : Prop := t'.heap.len = t.heap.len ∧ t' = { t with heap := t'.heap }

theorem updatesRelate_heap (s : State) {h : Memory} (hlen : h.len = s.heap.len) :
    UpdatesRelate AgreeButHeapBytes s { s with heap := h } where
  raised _ := ⟨hlen, rfl⟩
  answered _ := ⟨hlen, rfl⟩
  wrote _ _ := ⟨hlen, rfl⟩
  divided _ _ _ := ⟨hlen, rfl⟩
  compared _ := ⟨hlen, rfl⟩
  jumped _ := ⟨hlen, rfl⟩
  grew n := ⟨congrArg (· + n) hlen, rfl⟩

/-! ## The obligations of spec/20_memory.md -/

/-- Settles O33: what is written, by the inversion of `exec`, since growth is the one change of the heap; what is
read, by running the instruction with both heaps. -/
theorem heapBytesAreNeitherReadNorWritten : Obligations.HeapBytesAreNeitherReadNorWritten := by
  refine ⟨fun i s t ht hw a b hb => ?_, fun i s t ht => ⟨?_, (exec_next ht).heap_eq⟩, fun i s t h ht hlen => ?_,
    fun s a => rfl⟩
  · obtain ⟨n, hgrow⟩ := (exec_next ht).heap_eq_grow
    exact Memory.old_or_zero_of_read_grow hw (hgrow ▸ hb)
  · obtain ⟨n, hgrow⟩ := (exec_next ht).heap_eq_grow
    simp [hgrow]
  · exact exec_related_next ht (updatesRelate_heap s hlen) (fun _ _ => rfl) rfl hlen fun _ => rfl

/-- Settles O34: the buffer itself is the old one, after an instruction by the inversion of `exec` and after a step by
the cases of `stepWith`. -/
theorem programIsNeverWritten : Obligations.ProgramIsNeverWritten := by
  refine ⟨fun i s t ht => ?_, fun m s t ht => ?_⟩
  · simp [(exec_next ht).prog_eq]
  · simp [stepWith_prog ht]

end Sys2Proof.Machine
end

section
/-! # The encoding: coders, opcode lookup and listing invert one another (spec/30_encoding.md) -/

namespace Sys2Proof

/-! ## The opcode lookup -/

theorem opcodeOfByte_eq_none_iff {m : OpcodeMap} {b : Byte} : opcodeOfByte m b = none ↔ ∀ op, m op ≠ b := by
  simp [opcodeOfByte, Op.mem_all]

theorem opcodeOfByte_eq_some_iff {m : OpcodeMap} (hm : m.Admissible) {b : Byte} {op : Op} :
    opcodeOfByte m b = some op ↔ m op = b := by
  refine ⟨map_of_opcodeOfByte, fun hb => ?_⟩
  cases h : opcodeOfByte m b with
  | none => exact absurd hb (opcodeOfByte_eq_none_iff.mp h op)
  | some op' => rw [hm.injective op' op ((map_of_opcodeOfByte h).trans hb.symm)]

/-! ## The default map -/

theorem OpcodeMap.toNat_default_lt (op : Op) : (OpcodeMap.default op).toNat < 0x14 := by cases op <;> decide

/-- R74 lists the opcodes in the order of their default bytes. -/
theorem OpcodeMap.default_getElem_all : ∀ k : Fin 0x14, (OpcodeMap.default Op.all[k]).toNat = k := by decide

theorem OpcodeMap.exists_default_eq {b : Byte} (h : b.toNat < 0x14) : ∃ op, OpcodeMap.default op = b :=
  ⟨_, BitVec.eq_of_toNat_eq (default_getElem_all ⟨b.toNat, h⟩)⟩

theorem opcodeOfByte_default (op : Op) : opcodeOfByte OpcodeMap.default (OpcodeMap.default op) = some op := by
  cases op <;> rfl

theorem OpcodeMap.default_admissible : OpcodeMap.default.Admissible where
  injective a b h := Option.some.inj (by rw [← opcodeOfByte_default a, h, opcodeOfByte_default])
  spares_ff a h := by
    have := OpcodeMap.toNat_default_lt a
    simp [h] at this

/-! ## The operand bytes and the coders -/

theorem parseOperands_encodeOperands (rest : List Byte) : ∀ (ks : List OperandKind) (o : Operands ks),
    parseOperands ks (encodeOperands ks o ++ rest) = some (o, rest)
  | [], _ => rfl
  | .register :: ks, o => by simp [encodeOperands, parseOperands, parseOperands_encodeOperands rest ks]
  | .immediate :: ks, o => by simp [encodeOperands, parseOperands, immBytes, parseOperands_encodeOperands rest ks]

theorem eq_encodeOperands_of_parseOperands {rest : List Byte} : ∀ {ks : List OperandKind} {bs : List Byte}
    {o : Operands ks}, parseOperands ks bs = some (o, rest) → bs = encodeOperands ks o ++ rest
  | [], bs, o, h => by
    cases h
    rfl
  | .register :: ks, b :: bs, o, h => by
    obtain ⟨⟨o', rest'⟩, hp, he⟩ := Option.map_eq_some_iff.mp h
    cases he
    exact congrArg (b :: ·) (eq_encodeOperands_of_parseOperands hp)
  | .immediate :: ks, hi :: lo :: bs, o, h => by
    obtain ⟨⟨o', rest'⟩, hp, he⟩ := Option.map_eq_some_iff.mp h
    cases he
    simp [encodeOperands, eq_encodeOperands_of_parseOperands hp]

theorem encodeWith_build (m : OpcodeMap) (op : Op) (o : Operands op.spec) :
    encodeWith m (Instr.build op o) = m op :: encodeOperands op.spec o := by
  cases op <;> rfl

theorem decodeWith_encodeWith {m : OpcodeMap} (hm : m.Admissible) (i : Instr) (rest : List Byte) :
    decodeWith m (encodeWith m i ++ rest) = .ok (i, rest) := by
  simp [encodeWith, decodeWith, (opcodeOfByte_eq_some_iff hm).mpr rfl, parseOperands_encodeOperands]

/-- What the decoder answers an instruction for: a mapped byte and that opcode's operands. -/
theorem decodeWith_eq_ok {m : OpcodeMap} {bs rest : List Byte} {i : Instr} (h : decodeWith m bs = .ok (i, rest)) :
    ∃ (op : Op) (o : Operands op.spec) (bs' : List Byte),
      bs = m op :: bs' ∧ parseOperands op.spec bs' = some (o, rest) ∧ i = Instr.build op o := by
  cases bs with
  | nil => cases h
  | cons b bs =>
    simp only [decodeWith] at h
    split at h
    · cases h
    · rename_i op hop
      split at h
      · cases h
      · rename_i o rest' hparse
        cases h
        exact ⟨op, o, bs, by rw [map_of_opcodeOfByte hop], hparse, rfl⟩

theorem eq_encodeWith_of_decodeWith {m : OpcodeMap} {bs rest : List Byte} {i : Instr}
    (h : decodeWith m bs = .ok (i, rest)) : bs = encodeWith m i ++ rest := by
  obtain ⟨op, o, bs', rfl, hparse, rfl⟩ := decodeWith_eq_ok h
  rw [encodeWith_build, List.cons_append, ← eq_encodeOperands_of_parseOperands hparse]

/-- LOAD's immediate stands in its encoding high byte first (R80). -/
theorem encodeWith_load (m : OpcodeMap) (r hi lo : Byte) :
    encodeWith m (.load r (hi ++ lo)) = [m .load, r, hi, lo] :=
  congrArg (fun bs => m .load :: r :: (bs ++ [])) (immBytes_immOfBytes hi lo)

end Sys2Proof

namespace Sys2Proof.Machine

open Sys2Proof

/-! ## The step while a fault is latched, and at an instruction's encoding -/

/-- While a fault is latched a step only returns it again (R117). -/
theorem stepWith_of_latched (m : OpcodeMap) {s : State} {f : VmFault} (h : s.fault = some f) :
    stepWith m s = .next (s.answer (.halted (.fault f))) := by
  simp only [stepWith, h, halt]

/-- A step at an instruction's encoding runs it, with pc past its last byte (R111, R115). -/
theorem stepWith_of_holds {m : OpcodeMap} (hm : m.Admissible) {s : State} {i : Instr} (hrun : Running s)
    (h : s.prog.Holds s.pc.toNat (encodeWith m i)) : stepWith m s = exec i (s.advance i.size) := by
  have hread : s.prog.read s.pc.toNat = some (m i.op) := h 0 (Nat.zero_lt_succ _)
  have hlt := Memory.lt_len_of_read _ hread
  have hlen : (encodeWith m i).length ≤ longestInstr := by
    have := Op.size_le i.op
    simpa [encodeWith, length_encodeOperands, Op.size, Nat.add_comm] using this
  obtain ⟨rest, hfetch⟩ := Memory.slice_of_holds _ _ _ longestInstr h hlen
  have hdecode : decodeWith m (fetchBytes s) = .ok (i, rest) := by
    rw [fetchBytes, hfetch, decodeWith_encodeWith hm]
  simp only [stepWith, hrun, if_neg (not_le.mpr hlt), hdecode]

/-- The second state is the first one with another program. -/
def AgreeButProg (p : Memory) (t t' : State) : Prop := t' = { t with prog := p }

theorem updatesRelate_prog (s : State) (p : Memory) : UpdatesRelate (AgreeButProg p) s { s with prog := p } :=
  ⟨fun _ => rfl, fun _ => rfl, fun _ _ => rfl, fun _ _ _ => rfl, fun _ => rfl, fun _ => rfl, fun _ => rfl⟩

/-- No instruction reads the program (R62). -/
theorem exec_prog {i : Instr} {s t : State} (p : Memory) (ht : exec i s = .next t) :
    exec i { s with prog := p } = .next { t with prog := p } := by
  obtain ⟨t', ht', rfl⟩ := exec_related_next ht (updatesRelate_prog s p) (fun _ _ => rfl) rfl rfl fun _ => rfl
  exact ht'

/-! ## The listing -/

theorem showOperands_head? (ks : List OperandKind) (o : Operands ks) {c : Char}
    (h : (showOperands ks o).head? = some c) : c = ' ' := by
  match ks with
  | [] => cases h
  | .register :: _ | .immediate :: _ =>
    cases h
    rfl

theorem lineEnd_notMem_showOperands : ∀ (ks : List OperandKind) (o : Operands ks), lineEnd ∉ showOperands ks o
  | [], _ => List.not_mem_nil
  | .register :: ks, o => by
    have hw : lineEnd ∉ showRegister o.1 := fun h => (inToken_showRegister o.1 _ h).2 rfl
    simpa [showOperands, lineEnd] using And.intro hw (lineEnd_notMem_showOperands ks o.2)
  | .immediate :: ks, o => by
    have hw : lineEnd ∉ showImmediate o.1 := fun h => (inToken_showImmediate o.1 _ h).2 rfl
    simpa [showOperands, lineEnd] using And.intro hw (lineEnd_notMem_showOperands ks o.2)

theorem lineEnd_notMem_showInstr (i : Instr) : lineEnd ∉ showInstr i := fun h =>
  (List.mem_append.mp h).elim (fun h => (inToken_mnemonic i.op _ h).2 rfl) (lineEnd_notMem_showOperands _ _)

theorem showRegister_ne_nil (b : Byte) : showRegister b ≠ [] := List.cons_ne_nil _ _

theorem showImmediate_ne_nil (v : Imm) : showImmediate v ≠ [] := by
  unfold showImmediate
  split
  · exact List.cons_ne_nil _ _
  · exact decimal_ne_nil (by decide) _

/-- A word before further operands is one token, and theirs follow. -/
theorem tokensFrom_word {w : Text} (hne : w ≠ []) (hw : ∀ c ∈ w, InToken c) (ks : List OperandKind) (o : Operands ks) :
    tokensFrom [] (' ' :: w ++ showOperands ks o) = w :: tokensFrom [] (showOperands ks o) := by
  have hskip : tokensFrom [] (' ' :: w ++ showOperands ks o) = tokensFrom w (showOperands ks o) :=
    tokensFrom_append w _ hw []
  rw [hskip]
  cases hs : showOperands ks o with
  | nil => simp [tokensFrom, hne]
  | cons c cs =>
    obtain rfl := showOperands_head? ks o (c := c) (by rw [hs]; rfl)
    exact tokensFrom_blank hne

theorem length_tokensFrom_showOperands : ∀ (ks : List OperandKind) (o : Operands ks),
    (tokensFrom [] (showOperands ks o)).length = ks.length
  | [], _ => rfl
  | .register :: ks, o => by
    rw [showOperands, tokensFrom_word (showRegister_ne_nil o.1) (inToken_showRegister o.1), List.length_cons,
      length_tokensFrom_showOperands ks, List.length_cons]
  | .immediate :: ks, o => by
    rw [showOperands, tokensFrom_word (showImmediate_ne_nil o.1) (inToken_showImmediate o.1), List.length_cons,
      length_tokensFrom_showOperands ks, List.length_cons]

theorem readOperands_showOperands (line : Nat) (op : Op) : ∀ (ks : List OperandKind) (o : Operands ks),
    readOperands line op ks (tokensFrom [] (showOperands ks o)) = .ok o
  | [], _ => rfl
  | .register :: ks, o => by
    rw [showOperands, tokensFrom_word (showRegister_ne_nil o.1) (inToken_showRegister o.1)]
    simp only [readOperands, readToken_showRegister, readOperands_showOperands line op ks]
  | .immediate :: ks, o => by
    rw [showOperands, tokensFrom_word (showImmediate_ne_nil o.1) (inToken_showImmediate o.1)]
    simp only [readOperands, readToken_showImmediate, readOperands_showOperands line op ks]

theorem assembleLine_showInstr (line : Nat) (i : Instr) : assembleLine line (showInstr i) = .ok i := by
  have hcut : firstWord (showInstr i) = (mnemonic i.op, showOperands i.op.spec i.operands) :=
    firstWord_append _ _ (inToken_mnemonic i.op) fun c hc => by rw [showOperands_head? _ _ hc]; rfl
  simp [assembleLine, hcut, opcodeOfMnemonic_mnemonic, length_tokensFrom_showOperands, readOperands_showOperands]

/-- Characters other than the terminator only lengthen the current line (R90). -/
theorem assembleFrom_append (line : Nat) (rest : Text) {w : Text} : ∀ {cur : Text}, lineEnd ∉ w →
    assembleFrom line cur (w ++ rest) = assembleFrom line (cur ++ w) rest := by
  induction w with
  | nil => simp
  | cons c w ih =>
    intro cur h
    obtain ⟨hc, hw⟩ := not_or.mp (mt List.mem_cons.mpr h)
    rw [List.cons_append, assembleFrom, if_neg (Ne.symm hc), ih hw, List.append_assoc, List.singleton_append]

theorem assembleFrom_listing (is : List Instr) : ∀ line : Nat, assembleFrom line [] (listing is) = .ok is := by
  induction is with
  | nil => exact fun _ => rfl
  | cons i is ih =>
    intro line
    have hcons : listing (i :: is) = showInstr i ++ lineEnd :: listing is := by simp [listing]
    rw [hcons, assembleFrom_append line _ (lineEnd_notMem_showInstr i), List.nil_append]
    simp only [assembleFrom, if_true, assembleLine_showInstr, ih]

/-! ## The obligations of spec/30_encoding.md -/

/-- Settles O1: the lookup inverts the map, and the operand bytes parse to the operands they encode. -/
theorem decodeInvertsEncode : Obligations.DecodeInvertsEncode :=
  fun _ hm i rest => decodeWith_encodeWith hm i rest

/-- Settles O7, by induction on the program: each line is cut back into the words it was shown as. -/
theorem assemblerReadsTheListing : Obligations.AssemblerReadsTheListing :=
  fun is => assembleFrom_listing is 0

/-- Settles O2, by the cases in which the decoder answers an instruction. -/
theorem decodedBytesAreTheEncoding : Obligations.DecodedBytesAreTheEncoding :=
  fun _ _ _ _ h => eq_encodeWith_of_decodeWith h

/-- Settles O3: a map that is injective gives a byte to one opcode at most. -/
theorem opcodeLookupInvertsTheMap : Obligations.OpcodeLookupInvertsTheMap :=
  fun _ hm => ⟨fun _ _ => opcodeOfByte_eq_some_iff hm, opcodeOfByte_eq_none_iff.mpr hm.spares_ff⟩

/-- Settles O45: where no fault is latched both steps run the one instruction, and it does not read the program. -/
theorem opcodeMapOnlyRelabels : Obligations.OpcodeMapOnlyRelabels := by
  intro m m' s t p i hm hm' hs hp ht
  rcases Option.eq_none_or_eq_some s.fault with hf | ⟨f, hf⟩
  · rw [stepWith_of_holds hm hf hs] at ht
    rw [stepWith_of_holds hm' (s := { s with prog := p }) hf hp]
    exact exec_prog p ht
  · rw [stepWith_of_latched m hf] at ht
    cases ht
    exact stepWith_of_latched m' (s := { s with prog := p }) hf

/-- Settles O4: the default bytes are exactly those below 0x14, each with its own opcode. -/
theorem defaultMapIsAdmissible : Obligations.DefaultMapIsAdmissible := by
  refine ⟨OpcodeMap.default_admissible, fun b => opcodeOfByte_eq_none_iff.trans ⟨fun h => ?_, fun hb op hop => ?_⟩⟩
  · by_contra hlt
    obtain ⟨op, hop⟩ := OpcodeMap.exists_default_eq (not_le.mp hlt)
    exact h op hop
  · exact absurd (hop ▸ OpcodeMap.toNat_default_lt op) (not_lt.mpr hb)

/-- Settles O5: each layout is the encoder's own, but for the two bytes of LOAD's immediate. -/
theorem encodingLayouts : Obligations.EncodingLayouts :=
  fun m ra _ _ hi lo => ⟨rfl, encodeWith_load m ra hi lo, rfl, rfl, rfl, rfl, rfl, rfl, rfl, rfl, rfl, rfl, rfl, rfl,
    rfl, rfl, rfl, rfl, rfl, rfl⟩

/-- Settles O6, by running the decoder on the nine words. -/
theorem specWordsDecode : Obligations.SpecWordsDecode := by
  unfold Obligations.SpecWordsDecode
  decide

end Sys2Proof.Machine
end

section
/-! # The step: its checks one by one, and R111's algorithm (spec/40_fetch_decode.md) -/

namespace Sys2Proof.Machine

open Sys2Proof

/-! ## One rule for each check of a step (R194) -/

section
variable {m : OpcodeMap} {s : State}

/-- At or past the end of the program (R112). -/
theorem stepWith_of_len_le (m : OpcodeMap) (hrun : Running s) (h : s.prog.len ≤ s.pc.toNat) :
    stepWith m s = .next (s.answer (.halted .endOfProgram)) := by
  simp only [stepWith, hrun, if_pos h, halt]

/-- The bytes fetched begin with the one at pc. -/
theorem fetchBytes_of_read {b : Byte} (hb : s.prog.read s.pc.toNat = some b) :
    fetchBytes s = b :: s.prog.slice (s.pc.toNat + 1) 3 := by
  simp only [fetchBytes, longestInstr, Memory.slice, hb]

/-- An unmapped byte at pc (R113). -/
theorem stepWith_of_illegal {b : Byte} (hrun : Running s) (hb : s.prog.read s.pc.toNat = some b)
    (hop : opcodeOfByte m b = none) : stepWith m s = .next ((s.advance 1).raised .illegalOpcode) := by
  have hlt := Memory.lt_len_of_read _ hb
  simp only [stepWith, hrun, if_neg (not_le.mpr hlt), fetchBytes_of_read hb, decodeWith, hop, raise]

/-- The operand bytes of an opcode at pc fail to parse just where they run past the end. -/
theorem parseOperands_fetched_eq_none_iff (h : s.pc.toNat < s.prog.len) (op : Op) :
    parseOperands op.spec (s.prog.slice (s.pc.toNat + 1) 3) = none ↔ s.prog.len < s.pc.toNat + op.size := by
  have hsize := Op.size_le op
  rw [parseOperands_eq_none, Memory.length_slice]
  simp only [Op.size, longestInstr] at hsize ⊢
  omega

/-- An opcode's byte at pc and fewer bytes left than its size (R114). -/
theorem stepWith_of_underrun {b : Byte} {op : Op} (hrun : Running s) (hb : s.prog.read s.pc.toNat = some b)
    (hop : opcodeOfByte m b = some op) (hshort : s.prog.len < s.pc.toNat + op.size) :
    stepWith m s = .next ((s.advance 1).raised .programUnderrun) := by
  have hlt := Memory.lt_len_of_read _ hb
  have hparse := (parseOperands_fetched_eq_none_iff hlt op).mpr hshort
  simp only [stepWith, hrun, if_neg (not_le.mpr hlt), fetchBytes_of_read hb, decodeWith, hop, hparse, raise]

/-- The bytes at pc decode to an instruction (R115, R118). -/
theorem stepWith_of_decodeWith {i : Instr} {rest : List Byte} (hrun : Running s) (hlt : s.pc.toNat < s.prog.len)
    (hdecode : decodeWith m (fetchBytes s) = .ok (i, rest)) : stepWith m s = exec i (s.advance i.size) := by
  simp only [stepWith, hrun, if_neg (not_le.mpr hlt), hdecode]

/-- An opcode's byte at pc and all its operand bytes after it: the step runs that opcode on those operands. -/
theorem stepWith_of_operands {b : Byte} {op : Op} (hrun : Running s) (hb : s.prog.read s.pc.toNat = some b)
    (hop : opcodeOfByte m b = some op) (hfits : s.pc.toNat + op.size ≤ s.prog.len) :
    ∃ (o : Operands op.spec) (rest : List Byte),
      s.prog.slice (s.pc.toNat + 1) 3 = encodeOperands op.spec o ++ rest ∧
      stepWith m s = exec (Instr.build op o) (s.advance op.size) := by
  have hlt := Memory.lt_len_of_read _ hb
  cases hparse : parseOperands op.spec (s.prog.slice (s.pc.toNat + 1) 3) with
  | none => exact absurd ((parseOperands_fetched_eq_none_iff hlt op).mp hparse) (not_lt.mpr hfits)
  | some p =>
    obtain ⟨o, rest⟩ := p
    have hdecode : decodeWith m (fetchBytes s) = .ok (Instr.build op o, rest) := by
      simp only [fetchBytes_of_read hb, decodeWith, hop, hparse]
    have hstep := stepWith_of_decodeWith hrun hlt hdecode
    rw [Instr.size, Instr.op_build] at hstep
    exact ⟨o, rest, eq_encodeOperands_of_parseOperands hparse, hstep⟩

/-- Every step answers a next state, since every instruction does. -/
theorem stepWith_answers (m : OpcodeMap) (s : State) : ∃ t, stepWith m s = .next t := by
  rcases stepWith_cases m s with ⟨f, -, e⟩ | ⟨-, -, e⟩ | ⟨f, -, -, -, e⟩ | ⟨i, rest, -, -, -, e⟩
  · exact ⟨_, e⟩
  · exact ⟨_, e⟩
  · exact ⟨_, e⟩
  · obtain ⟨t, ht, -⟩ := exec_answers i (s.advance i.size)
    exact ⟨t, e.trans ht⟩

end

/-! ## An instruction that faults -/

/-- An instruction that returns a fault makes no other update (R119, R193). -/
theorem ExecNext.eq_raised {i : Instr} {s t : State} {f : VmFault} (h : ExecNext i s t)
    (hout : t.out = some (.halted (.fault f))) : t = s.raised f := by
  cases h with
  | badRegister | faulted =>
    cases hout
    rfl
  | _ => cases hout

/-! ## The algorithm's operand fetch (R115) and arbiter (R116) -/

/-- A nonempty slice holds the byte at its offset, then the slice after it. -/
theorem Memory.read_of_slice_eq_cons {p : Memory} {a n : Nat} {b : Byte} {bs : List Byte}
    (h : p.slice a n = b :: bs) : p.read a = some b ∧ ∃ k, p.slice (a + 1) k = bs := by
  cases n with
  | zero => cases h
  | succ n =>
    cases hread : p.read a with
    | none => simp [Memory.slice, hread] at h
    | some c =>
      simp only [Memory.slice, hread, List.cons.injEq] at h
      obtain ⟨rfl, hbs⟩ := h
      exact ⟨rfl, n, hbs⟩

/-- Byte by byte the operand fetch reads the operands whose bytes stand at pc, and moves pc over them. -/
theorem fetchOperands_of_slice {p : Memory} (hlen : p.len < 2 ^ 64) {rest : List Byte} : ∀ (ks : List OperandKind)
    (o : Operands ks) (pc : Offset) (n : Nat), p.slice pc.toNat n = encodeOperands ks o ++ rest →
    fetchOperands p ks pc = .ok (o, pc + BitVec.ofNat 64 (operandBytes ks))
  | [], _, _, _, _ => by simp [fetchOperands, operandBytes]
  | .register :: ks, (b, o), pc, n, h => by
    obtain ⟨hb, k, hk⟩ := Memory.read_of_slice_eq_cons h
    have hlt := Memory.lt_len_of_read _ hb
    have hnext : (pc + 1).toNat = pc.toNat + 1 := by bv_omega
    have ih := fetchOperands_of_slice hlen ks o (pc + 1) k (hnext ▸ hk)
    have hpc : pc + 1 + BitVec.ofNat 64 (operandBytes ks) =
        pc + BitVec.ofNat 64 (operandBytes (.register :: ks)) := by
      simp [operandBytes, OperandKind.width, BitVec.ofNat_add, BitVec.add_assoc]
    simp only [fetchOperands, hb, ih, hpc]
  | .immediate :: ks, (v, o), pc, n, h => by
    obtain ⟨hhi, k, hk⟩ := Memory.read_of_slice_eq_cons h
    obtain ⟨hlo, l, hl⟩ := Memory.read_of_slice_eq_cons hk
    have hlt := Memory.lt_len_of_read _ hlo
    have hnext : (pc + 2).toNat = pc.toNat + 1 + 1 := by bv_omega
    have ih := fetchOperands_of_slice hlen ks o (pc + 2) l (hnext ▸ hl)
    have hpc : pc + 2 + BitVec.ofNat 64 (operandBytes ks) =
        pc + BitVec.ofNat 64 (operandBytes (.immediate :: ks)) := by
      simp [operandBytes, OperandKind.width, BitVec.ofNat_add, BitVec.add_assoc]
    simp only [fetchOperands, hhi, hlo, ih, hpc, immOfBytes_immBytes]

theorem registerOperands_eq_regOperands (op : Op) (o : Operands op.spec) :
    registerOperands op.spec o = (Instr.build op o).regOperands := by
  cases op <;> rfl

/-- The arbiter before the dispatch does what the one inside each meaning does (log entry 27). -/
theorem arbiter_before_exec (op : Op) (o : Operands op.spec) (s : State) :
    (if (registerOperands op.spec o).any fun r => decide (32 ≤ r.toNat) then raise .invalidRegisterIndex s
      else exec (Instr.build op o) s) = exec (Instr.build op o) s := by
  rw [registerOperands_eq_regOperands]
  split_ifs with hbad
  · exact (exec_bad (by simpa [Instr.WellFormed, Byte.IsRegister] using hbad) s).symm
  · rfl

/-- The algorithm's two moves of pc, over the opcode byte and over the operand bytes, are the step's one. -/
theorem setPc_setPc_eq_advance (s : State) (op : Op) :
    (s.setPc (s.pc + 1)).setPc (s.pc + 1 + BitVec.ofNat 64 (operandBytes op.spec)) = s.advance op.size := by
  simp [State.advance, State.setPc, Op.size, BitVec.ofNat_add, BitVec.add_assoc]

/-- Check by check, in the order of R194, the step is R111's. -/
theorem stepWith_eq_algorithmStep (m : OpcodeMap) {s : State} (hlen : s.prog.len < 2 ^ 64) :
    stepWith m s = algorithmStep m s := by
  rcases Option.eq_none_or_eq_some s.fault with hrun | ⟨f, hf⟩
  swap
  · simp only [stepWith_of_latched m hf, algorithmStep, hf, halt]
  rcases le_or_gt s.prog.len s.pc.toNat with hend | hlt
  · simp only [stepWith_of_len_le m hrun hend, algorithmStep, hrun, ge_iff_le, if_pos hend, halt]
  obtain ⟨b, hb⟩ : ∃ b, s.prog.read s.pc.toNat = some b := ⟨_, s.prog.read_of_lt hlt⟩
  simp only [algorithmStep, hrun, ge_iff_le, if_neg (not_le.mpr hlt), hb]
  cases hop : opcodeOfByte m b with
  | none => exact stepWith_of_illegal hrun hb hop
  | some op =>
    have hpc : (s.pc + 1).toNat = s.pc.toNat + 1 := by bv_omega
    have hsize : s.pc.toNat + 1 + (op.size - 1) = s.pc.toNat + op.size := by
      simp only [Op.size]
      omega
    simp only [State.setPc_pc, State.setPc_prog, hpc, hsize, gt_iff_lt]
    split_ifs with hshort
    · exact stepWith_of_underrun hrun hb hop hshort
    · obtain ⟨o, rest, hslice, hstep⟩ := stepWith_of_operands hrun hb hop (not_lt.mp hshort)
      rw [← hpc] at hslice
      simp only [fetchOperands_of_slice hlen _ o _ _ hslice, setPc_setPc_eq_advance, arbiter_before_exec, hstep]

/-! ## Several steps -/

section
variable {m : OpcodeMap} {s u : State}

theorem stepTimes_succ (n : Nat) (h : stepWith m s = .next u) : stepTimes m (n + 1) s = stepTimes m n u := by
  simp only [stepTimes, h]

theorem runFor_succ (n : Nat) (h : stepWith m s = .next u) :
    runFor m (n + 1) s = if u.isHalted then some u else runFor m n u := by
  simp only [runFor, h]

end

/-- `t` is the state after `k` steps that did not halt and one that did. -/
def HaltsFirstAfter (m : OpcodeMap) (s t : State) (k : Nat) : Prop :=
  stepTimes m (k + 1) s = some t ∧ t.isHalted = true ∧
    ∀ j u, j < k → stepTimes m (j + 1) s = some u → u.isHalted = false

/-- A first step that halts is the first halt. -/
theorem haltsFirstAfter_of_halted {m : OpcodeMap} {s u t : State} {k : Nat} (h : stepWith m s = .next u)
    (hu : u.isHalted = true) : HaltsFirstAfter m s t k ↔ k = 0 ∧ u = t := by
  constructor
  · rintro ⟨hsteps, -, hbefore⟩
    rcases Nat.eq_zero_or_pos k with rfl | hk
    · rw [stepTimes_succ 0 h] at hsteps
      exact ⟨rfl, Option.some.inj hsteps⟩
    · simp [hbefore 0 u hk (stepTimes_succ 0 h)] at hu
  · rintro ⟨rfl, rfl⟩
    exact ⟨stepTimes_succ 0 h, hu, fun j _ hj => absurd hj (Nat.not_lt_zero j)⟩

theorem not_haltsFirstAfter_zero {m : OpcodeMap} {s u t : State} (h : stepWith m s = .next u)
    (hu : u.isHalted = false) : ¬HaltsFirstAfter m s t 0 := by
  rintro ⟨hsteps, ht, -⟩
  rw [stepTimes_succ 0 h] at hsteps
  cases hsteps
  simp [hu] at ht

/-- Past a first step that does not halt, the first halt is that of the state it gives. -/
theorem haltsFirstAfter_succ {m : OpcodeMap} {s u t : State} {k : Nat} (h : stepWith m s = .next u)
    (hu : u.isHalted = false) : HaltsFirstAfter m s t (k + 1) ↔ HaltsFirstAfter m u t k := by
  unfold HaltsFirstAfter
  rw [stepTimes_succ _ h]
  refine and_congr_right fun _ => and_congr_right fun _ => ⟨fun hbefore j v hj hv => ?_, fun hbefore j v hj hv => ?_⟩
  · exact hbefore (j + 1) v (Nat.succ_lt_succ hj) ((stepTimes_succ _ h).trans hv)
  · rw [stepTimes_succ _ h] at hv
    cases j with
    | zero =>
      cases hv
      exact hu
    | succ j => exact hbefore j v (Nat.lt_of_succ_lt_succ hj) hv

theorem runFor_eq_some_iff (m : OpcodeMap) (n : Nat) : ∀ s t : State,
    runFor m n s = some t ↔ ∃ k, k < n ∧ HaltsFirstAfter m s t k := by
  induction n with
  | zero => simp [runFor]
  | succ n ih =>
    intro s t
    obtain ⟨u, h⟩ := stepWith_answers m s
    rw [runFor_succ n h]
    cases hu : u.isHalted with
    | true => simp [haltsFirstAfter_of_halted h hu]
    | false =>
      rw [if_neg Bool.false_ne_true, ih]
      constructor
      · rintro ⟨k, hk, hfirst⟩
        exact ⟨k + 1, Nat.succ_lt_succ hk, (haltsFirstAfter_succ h hu).mpr hfirst⟩
      · rintro ⟨k, hk, hfirst⟩
        cases k with
        | zero => exact absurd hfirst (not_haltsFirstAfter_zero h hu)
        | succ k => exact ⟨k, Nat.lt_of_succ_lt_succ hk, (haltsFirstAfter_succ h hu).mp hfirst⟩

/-- While a fault is latched any number of steps, one at least, only returns it (R117). -/
theorem stepTimes_of_latched (m : OpcodeMap) {f : VmFault} (n : Nat) : ∀ {s : State}, s.fault = some f →
    stepTimes m (n + 1) s = some (s.answer (.halted (.fault f))) := by
  induction n with
  | zero => exact fun hf => stepTimes_succ 0 (stepWith_of_latched m hf)
  | succ n ih =>
    intro s hf
    rw [stepTimes_succ _ (stepWith_of_latched m hf)]
    exact ih (s := s.answer (.halted (.fault f))) hf

/-! ## The obligations of spec/40_fetch_decode.md -/

/-- Settles O28, by the inversion of `exec`: only the two raising cases return a fault. -/
theorem faultsAreAllOrNothing : Obligations.FaultsAreAllOrNothing :=
  fun _ _ _ _ ht hout => (exec_next ht).eq_raised hout

/-- Settles O41, by induction on the number of steps: the first of them leaves the latch. -/
theorem latchedFaultIsSticky : Obligations.LatchedFaultIsSticky :=
  fun m _ _ n hf => stepTimes_of_latched m n hf

/-- Settles O42, by the cases of a step: a check answers, or the instruction does. -/
theorem everyStepAnswers : Obligations.EveryStepAnswers := stepWith_answers

/-- Settles O43, check by check; the operands parsed from the slice are those fetched byte by byte. -/
theorem stepIsTheAlgorithm : Obligations.StepIsTheAlgorithm :=
  fun m _ hlen => stepWith_eq_algorithmStep m hlen

/-- Settles O52, by induction on the bound: the first step halts, or the run goes on from the state it gives. -/
theorem runStopsAtTheFirstHalt : Obligations.RunStopsAtTheFirstHalt := runFor_eq_some_iff

/-- Settles O37: the decoder's answer decides the step, and an encoding decodes to its instruction. -/
theorem stepRunsTheDecodedInstruction : Obligations.StepRunsTheDecodedInstruction :=
  ⟨fun _ _ _ hrun hlt hdecode => stepWith_of_decodeWith hrun hlt hdecode,
    fun _ _ _ hm hrun hholds => stepWith_of_holds hm hrun hholds⟩

/-- Settles O38, by the step's check of pc against the length. -/
theorem endOfProgramHalts : Obligations.EndOfProgramHalts :=
  fun m _ hrun hend => stepWith_of_len_le m hrun hend

/-- Settles O39, by the decoder's answer at an unmapped byte. -/
theorem illegalOpcodeFaults : Obligations.IllegalOpcodeFaults :=
  fun _ _ _ hrun hb hop => stepWith_of_illegal hrun hb hop

/-- Settles O40: the lookup finds the opcode, and its operand bytes do not parse from the bytes left. -/
theorem underrunFaults : Obligations.UnderrunFaults :=
  fun _ _ _ hm hrun hb hshort => stepWith_of_underrun hrun hb ((opcodeOfByte_eq_some_iff hm).mpr rfl) hshort

end Sys2Proof.Machine
end

section
/-! # The data and arithmetic instructions: wrapping, division and the immediate (spec/41_data_alu.md) -/

namespace Sys2Proof.Machine

open Sys2Proof

/-! ## wrap32 and sval (R9) -/

@[simp] theorem wrap32_sval (v : Word) : wrap32 (sval v) = v := BitVec.ofInt_toInt

theorem wrap32_add (m n : Int) : wrap32 (m + n) = wrap32 m + wrap32 n := BitVec.ofInt_add m n

theorem wrap32_mul (m n : Int) : wrap32 (m * n) = wrap32 m * wrap32 n := BitVec.ofInt_mul m n

theorem wrap32_sub (m n : Int) : wrap32 (m - n) = wrap32 m - wrap32 n := by
  rw [Int.sub_eq_add_neg, wrap32_add, BitVec.sub_eq_add_neg]
  exact congrArg (wrap32 m + ·) BitVec.ofInt_neg

/-- Within the signed range nothing wraps. -/
theorem sval_wrap32 {n : Int} (hlo : -2 ^ 31 ≤ n) (hhi : n < 2 ^ 31) : sval (wrap32 n) = n :=
  BitVec.toInt_ofInt_eq_self (by decide) hlo hhi

theorem sval_sext32 (imm : Imm) : sval (sext32 imm) = imm.toInt := BitVec.toInt_signExtend_of_le (by decide)

/-! ## Division rounded toward zero (R10) -/

theorem trem_eq_tmod (a b : Int) : trem a b = a.tmod b := (Int.tmod_def a b).symm

theorem abs_tmod_lt (a : Int) {b : Int} (hb : b ≠ 0) : |a.tmod b| < |b| := by
  rw [Int.abs_eq_natAbs, Int.abs_eq_natAbs, Int.natAbs_tmod, Nat.cast_lt]
  exact Nat.mod_lt _ (Int.natAbs_pos.mpr hb)

/-- The remainder is 0 or has the dividend's sign. -/
theorem tmod_eq_zero_or_pos_iff (a b : Int) : a.tmod b = 0 ∨ (0 < a.tmod b ↔ 0 < a) := by
  have hsign := Int.sign_tmod a b
  split_ifs at hsign with hdvd
  · exact .inl (Int.sign_eq_zero_iff_zero.mp hsign)
  · exact .inr (by rw [← Int.sign_eq_one_iff_pos, hsign, Int.sign_eq_one_iff_pos])

/-- Two signed words have a quotient that fits, but for -2^31 by -1. -/
theorem tdiv_fits (v w : Word) (hover : ¬(sval v = -2 ^ 31 ∧ sval w = -1)) :
    -2 ^ 31 ≤ (sval v).tdiv (sval w) ∧ (sval v).tdiv (sval w) < 2 ^ 31 := by
  have hlo := le_sval v
  have hhi := sval_lt v
  by_cases hneg : sval w = -1
  · rw [hneg, Int.tdiv_neg, Int.tdiv_one]
    omega
  by_cases hone : sval w = 1
  · rw [hone, Int.tdiv_one]
    exact ⟨hlo, hhi⟩
  rcases eq_or_ne (sval w) 0 with hzero | hzero
  · rw [hzero, Int.tdiv_zero]
    decide
  · have hhalf : ((sval v).tdiv (sval w)).natAbs ≤ (sval v).natAbs / 2 := by
      rw [Int.natAbs_tdiv]
      exact Nat.div_le_div_left (by omega) (by decide)
    omega

/-- The remainder fits too, for every divisor but 0. -/
theorem tmod_fits (v : Word) {w : Word} (hw : sval w ≠ 0) :
    -2 ^ 31 ≤ (sval v).tmod (sval w) ∧ (sval v).tmod (sval w) < 2 ^ 31 := by
  have hlo := le_sval w
  have hhi := sval_lt w
  have hlt := abs_lt.mp (abs_tmod_lt (sval v) hw)
  have habs : |sval w| ≤ 2 ^ 31 := abs_le.mpr ⟨hlo, hhi.le⟩
  omega

/-- A division on registers that faults only latches its fault (R135). -/
theorem execDiv_regByte_of_error {s : State} {a b : RegIndex} (d : RegIndex) {f : VmFault}
    (h : divide (sval (s.x a)) (sval (s.x b)) = .error f) :
    execDiv (regByte a) (regByte b) (regByte d) s = .next (s.raised f) := by
  simp [execDiv, withRegs3, h, raise]

/-! ## The faults of the arbiter and of the fetch leave the registers -/

/-- An operand byte of 32 or more raises the arbiter's fault, which writes no register (R22, R116). -/
theorem exec_bad_keeps_regs {i : Instr} {b : Byte} (hmem : b ∈ i.regOperands) (hb : 32 ≤ b.toNat) (s : State) :
    ∃ t, exec i s = .next t ∧ t.out = some (.halted (.fault .invalidRegisterIndex)) ∧ t.regs = s.regs :=
  ⟨_, exec_bad (fun hw => absurd (hw b hmem) (not_lt.mpr hb)) s, rfl, rfl⟩

/-- An instruction cut off by the program's end raises ProgramUnderrun, which writes no register (R114). -/
theorem stepWith_underrun_keeps_regs {m : OpcodeMap} {s : State} {op : Op} (hm : m.Admissible) (hrun : Running s)
    (hread : s.prog.read s.pc.toNat = some (m op)) (hshort : s.prog.len < s.pc.toNat + op.size) :
    ∃ t, stepWith m s = .next t ∧ t.out = some (.halted (.fault .programUnderrun)) ∧ t.regs = s.regs :=
  ⟨_, underrunFaults m s op hm hrun hread hshort, rfl, rfl⟩

/-! ## The obligations of spec/41_data_alu.md -/

/-- Settles O11: wrap32 carries the exact operation on signed values to the bit vectors' own, which is the one on
unsigned values modulo 2^32. -/
theorem arithmeticIsSignAgnostic : Obligations.ArithmeticIsSignAgnostic := by
  refine fun s a b d => ⟨⟨_, arithWith_regByte _ a b d s, ?_⟩, ⟨_, arithWith_regByte _ a b d s, ?_⟩,
    ⟨_, arithWith_regByte _ a b d s, ?_⟩, ⟨_, stepReg_regByte 1 d s, ?_⟩, ⟨_, stepReg_regByte (-1) d s, ?_⟩⟩ <;>
    rw [State.x_answer, State.x_setX_self]
  · rw [wrap32_add, wrap32_sval, wrap32_sval, BitVec.toNat_add]
  · rw [wrap32_sub, wrap32_sval, wrap32_sval, BitVec.toNat_sub, Nat.add_comm]
  · rw [wrap32_mul, wrap32_sval, wrap32_sval, BitVec.toNat_mul]
  · rw [wrap32_add, wrap32_sval, BitVec.toNat_add]
    rfl
  · rw [wrap32_add, wrap32_sval, BitVec.toNat_add]
    rfl

/-- Settles O14: quotient and remainder fit in a register, so what is held is exact. -/
theorem divisionLaw : Obligations.DivisionLaw := by
  intro s a b d hzero hover
  obtain ⟨hqlo, hqhi⟩ := tdiv_fits (s.x a) (s.x b) hover
  obtain ⟨hrlo, hrhi⟩ := tmod_fits (s.x a) hzero
  refine ⟨_, execDiv_regByte d hzero hover, ?_⟩
  simp only [State.x_answer, State.x_setRem, State.x_setX_self, State.answer_rem, State.setRem_rem, trem_eq_tmod, tdiv,
    sval_wrap32 hqlo hqhi, sval_wrap32 hrlo hrhi]
  exact ⟨(Int.mul_tdiv_add_tmod _ _).symm, abs_tmod_lt _ hzero, tmod_eq_zero_or_pos_iff _ _⟩

/-- Settles O9: the sign extension is the word of the immediate's value; the faults are the arbiter's and the fetch's. -/
theorem loadWritesTheImmediate : Obligations.LoadWritesTheImmediate := by
  refine ⟨encodeWith_load, fun s r imm => ⟨sext32 imm, sval_sext32 imm, withReg_regByte r s _⟩, fun s r imm hr => ?_,
    fun m s hm hrun hread hshort => stepWith_underrun_keeps_regs hm hrun hread hshort⟩
  exact exec_bad_keeps_regs (List.mem_singleton_self r) hr s

/-- Settles O10, by the arithmetic template at registers that exist. -/
theorem addSubMulWrap : Obligations.AddSubMulWrap :=
  fun s a b d => ⟨arithWith_regByte _ a b d s, arithWith_regByte _ a b d s, arithWith_regByte _ a b d s⟩

/-- Settles O12: R10's remainder is the one of the division rounded toward zero. -/
theorem divWritesQuotientAndRemainder : Obligations.DivWritesQuotientAndRemainder := by
  intro s a b d hzero hover
  rw [← trem_eq_tmod]
  exact execDiv_regByte d hzero hover

/-- Settles O13, by the two faults of `divide`. -/
theorem divFaults : Obligations.DivFaults := by
  refine fun s a b d => ⟨fun hzero => ?_, fun ⟨hmin, hneg⟩ => ?_⟩
  · exact execDiv_regByte_of_error d (by rw [hzero, divide_by_zero])
  · exact execDiv_regByte_of_error d (by rw [hmin, hneg, divide_overflow])

/-- Settles O15, by the template of INC and DEC; the faults are the arbiter's and the fetch's. -/
theorem incDecWrap : Obligations.IncDecWrap := by
  refine ⟨fun m r => ⟨rfl, rfl⟩, fun s r => ⟨stepReg_regByte 1 r s, stepReg_regByte (-1) r s⟩,
    fun s r hr i hi => ?_, fun m s hm hrun hshort op hop hread => ?_⟩
  · have hmem : r ∈ i.regOperands := by
      rcases List.mem_pair.mp hi with rfl | rfl <;> exact List.mem_singleton_self r
    exact exec_bad_keeps_regs hmem hr s
  · have hsize : op.size = 2 := by
      rcases List.mem_pair.mp hop with rfl | rfl <;> rfl
    exact stepWith_underrun_keeps_regs hm hrun hread (hsize ▸ hshort)

end Sys2Proof.Machine
end

section
/-! # The comparisons: FLAG is the signed relation, and the relations' laws (spec/42_compare.md) -/

namespace Sys2Proof.Machine

open Sys2Proof

/-! ## The relations come in opposite and in mirrored pairs (R157) -/

theorem relEq_eq_not_relNeq (a b : Int) : relEq a b = !relNeq a b := by
  simp only [relEq, relNeq, decide_not, Bool.not_not]

theorem relGt_eq_not_relLtq (a b : Int) : relGt a b = !relLtq a b := by
  simp only [relGt, relLtq, ← decide_not, not_le]

theorem relLt_eq_not_relGtq (a b : Int) : relLt a b = !relGtq a b := by
  simp only [relLt, relGtq, ← decide_not, not_le]

theorem relGt_eq_relLt_swap (a b : Int) : relGt a b = relLt b a := rfl

/-! ## The obligations of spec/42_compare.md -/

/-- Settles O18: each instruction's flag is its relation on the two signed values, so the laws are the relations'. -/
theorem comparisonLaws : Obligations.ComparisonLaws :=
  fun s a b => ⟨_, _, _, _, _, _, _, compareWith_regByte relEq a b s, compareWith_regByte relNeq a b s,
    compareWith_regByte relGt a b s, compareWith_regByte relLt a b s, compareWith_regByte relGtq a b s,
    compareWith_regByte relLtq a b s, compareWith_regByte relLt b a s, relEq_eq_not_relNeq _ _,
    relGt_eq_not_relLtq _ _, relLt_eq_not_relGtq _ _, relGt_eq_relLt_swap _ _⟩

/-- Settles O16, by the comparison template at registers that exist; the faults are the arbiter's and the fetch's. -/
theorem eqNeqGtLtSetTheFlag : Obligations.EqNeqGtLtSetTheFlag := by
  refine ⟨fun m ra rb => ⟨rfl, rfl, rfl, rfl⟩,
    fun s a b => ⟨compareWith_regByte relEq a b s, compareWith_regByte relNeq a b s, compareWith_regByte relGt a b s,
      compareWith_regByte relLt a b s⟩,
    fun s ra rb hbad i hi => ?_, fun m s hm hrun hshort op hop hread => ?_⟩
  · have hoperands : i.regOperands = [ra, rb] := by
      simp only [List.mem_cons, List.not_mem_nil, or_false] at hi
      rcases hi with rfl | rfl | rfl | rfl <;> rfl
    have hill : ¬i.WellFormed := by
      simp only [Instr.WellFormed, hoperands, Byte.IsRegister, List.forall_mem_cons]
      omega
    exact ⟨_, exec_bad hill s, rfl, rfl⟩
  · have hsize : op.size = 3 := by
      simp only [List.mem_cons, List.not_mem_nil, or_false] at hop
      rcases hop with rfl | rfl | rfl | rfl <;> rfl
    exact ⟨_, underrunFaults m s op hm hrun hread (hsize ▸ hshort), rfl, rfl⟩

/-- Settles O17, by the comparison template at registers that exist: D2's relations are signed >= and <=. -/
theorem gtqLtqSetTheFlag : Obligations.GtqLtqSetTheFlag :=
  fun s a b => ⟨compareWith_regByte relGtq a b s, compareWith_regByte relLtq a b s⟩

end Sys2Proof.Machine
end

section
/-! # Control transfer: the halt, exact jump targets and the flag's condition (spec/43_control.md) -/

namespace Sys2Proof.Machine

open Sys2Proof

/-! ## A jump at a register that exists is `jumpTo` its target (R164 to R168) -/

section
variable (r : RegIndex) (s : State)

theorem exec_jmp_regByte : exec (.jmp (regByte r)) s = jumpTo (sval (s.x r)) s := withReg_regByte r s _

theorem exec_jmpf_regByte : exec (.jmpf (regByte r)) s = jumpTo (s.pc.toNat + sval (s.x r)) s := withReg_regByte r s _

theorem exec_jmpb_regByte : exec (.jmpb (regByte r)) s = jumpTo (s.pc.toNat - sval (s.x r)) s := withReg_regByte r s _

end

theorem jumpIf_regByte_taken {want : Bool} {s : State} (r : RegIndex) (h : s.flag = want) :
    jumpIf want (regByte r) s = jumpTo (sval (s.x r)) s :=
  (withReg_regByte r s _).trans (if_pos h)

theorem jumpIf_regByte_not_taken {want : Bool} {s : State} (r : RegIndex) (h : s.flag ≠ want) :
    jumpIf want (regByte r) s = .next (s.answer .continue) :=
  (withReg_regByte r s _).trans (if_neg h)

/-! ## The targets (R162) -/

/-- A jump to a target that the 64 bits of pc hold writes exactly that target and nothing else of the spec's state. -/
theorem jumpTo_exact {t : Int} (hnonneg : 0 ≤ t) (hlt : t < 2 ^ 64) (s : State) :
    ∃ u : Offset, (u.toNat : Int) = t ∧ jumpTo t s = .next { s with pc := u, out := some .continue } :=
  ⟨BitVec.ofInt 64 t, toNat_ofInt_target hnonneg hlt, jumpTo_nonneg hnonneg s⟩

/-- A register's value is far below 2^64, so an absolute jump to one that is not negative is exact. -/
theorem jumpTo_sval_exact {v : Word} (h : 0 ≤ sval v) (s : State) :
    ∃ u : Offset, (u.toNat : Int) = sval v ∧ jumpTo (sval v) s = .next { s with pc := u, out := some .continue } :=
  jumpTo_exact h ((sval_lt v).trans (by decide)) s

/-- A conditional jump whose condition holds goes exactly to the register's value (R167, R168). -/
theorem jumpIf_regByte_exact {want : Bool} {s : State} (r : RegIndex) (hflag : s.flag = want)
    (hnonneg : 0 ≤ sval (s.x r)) : ∃ u : Offset, (u.toNat : Int) = sval (s.x r) ∧
      jumpIf want (regByte r) s = .next { s with pc := u, out := some .continue } := by
  rw [jumpIf_regByte_taken r hflag]
  exact jumpTo_sval_exact hnonneg s

/-! ## HLT's one byte (R160) -/

/-- HLT has no operands, so its opcode's byte is all of it. -/
theorem holds_encodeWith_hlt {m : OpcodeMap} {p : Memory} {a : Nat} (h : p.read a = some (m .hlt)) :
    p.Holds a (encodeWith m .hlt) := by
  intro k hk
  obtain rfl : k = 0 := Nat.lt_one_iff.mp hk
  exact h

/-! ## The obligations of spec/43_control.md -/

/-- Settles O21: pc is at most 2^33 and the value within 2^31 of 0, so neither sum nor difference reaches 2^64. -/
theorem jmpfJmpbAreRelative : Obligations.JmpfJmpbAreRelative := by
  intro s r hpc
  have hlo := le_sval (s.x r)
  have hhi := sval_lt (s.x r)
  rw [exec_jmpf_regByte, exec_jmpb_regByte]
  exact ⟨fun hnonneg => jumpTo_exact hnonneg (by omega) s, fun hnonneg => jumpTo_exact hnonneg (by omega) s⟩

/-- Settles O19: HLT's one byte is its whole encoding, so the step at that byte runs it. -/
theorem hltHalts : Obligations.HltHalts :=
  ⟨fun _ => rfl, fun _ => rfl, fun _ _ hm hrun hread => stepWith_of_holds hm hrun (holds_encodeWith_hlt hread)⟩

/-- Settles O20, by the exact absolute target. -/
theorem jmpIsAbsolute : Obligations.JmpIsAbsolute := by
  intro s r hnonneg
  rw [exec_jmp_regByte]
  exact jumpTo_sval_exact hnonneg s

/-- Settles O22: JEQ and JNEQ are one template at the two values of FLAG, taken or not. -/
theorem jeqJneqFollowTheFlag : Obligations.JeqJneqFollowTheFlag :=
  fun s r => ⟨fun hflag hnonneg => jumpIf_regByte_exact r hflag hnonneg,
    fun hflag => jumpIf_regByte_not_taken r (by simp [hflag]),
    fun hflag hnonneg => jumpIf_regByte_exact r hflag hnonneg,
    fun hflag => jumpIf_regByte_not_taken r (by simp [hflag])⟩

/-- Settles O23: each of the five is `jumpTo` a negative target, which only latches the fault. -/
theorem negativeTargetFaults : Obligations.NegativeTargetFaults :=
  fun s r => ⟨fun hneg => (exec_jmp_regByte r s).trans (jumpTo_neg hneg s),
    fun hneg => (exec_jmpf_regByte r s).trans (jumpTo_neg hneg s),
    fun hneg => (exec_jmpb_regByte r s).trans (jumpTo_neg hneg s),
    fun hflag hneg => (jumpIf_regByte_taken r hflag).trans (jumpTo_neg hneg s),
    fun hflag hneg => (jumpIf_regByte_taken r hflag).trans (jumpTo_neg hneg s)⟩

end Sys2Proof.Machine
end

section
/-! # Heap growth: the zero bytes ALLOC appends, and its fault (spec/44_heap.md) -/

namespace Sys2Proof.Machine

open Sys2Proof

/-! ## ALLOC at a register that exists is heap growth by the register's value (R181) -/

theorem allocWith_regByte (limit : Nat) (r : RegIndex) (s : State) :
    allocWith limit (regByte r) s = growHeap limit (sval (s.x r)) s := withReg_regByte r s _

/-! ## The two answers of heap growth, by its count -/

theorem growHeap_fits {limit : Nat} {n : Int} {s : State} (hnonneg : 0 ≤ n) (hfit : s.heap.len + n.toNat ≤ limit) :
    growHeap limit n s = .next ((s.setHeap (s.heap.grow n.toNat)).answer .continue) := by
  rcases growHeap_cases limit n s with ⟨hbad, -⟩ | ⟨-, -, hgrown⟩
  · omega
  · exact hgrown

theorem growHeap_faults {limit : Nat} {n : Int} {s : State} (hbad : n < 0 ∨ (limit : Int) < s.heap.len + n) :
    growHeap limit n s = .next (s.raised .heapGrowthOverflow) := by
  rcases growHeap_cases limit n s with ⟨-, hfault⟩ | ⟨hnonneg, hfit, -⟩
  · exact hfault
  · omega

/-! ## Every read of a grown buffer -/

theorem Memory.read_grow {m : Memory} (hw : m.wf = true) (n a : Nat) :
    (m.grow n).read a = if a < m.len then m.read a else if a < m.len + n then some 0 else none := by
  split_ifs with hold hnew
  · exact m.read_grow_old n hold
  · exact m.read_grow_new n hw (not_lt.mp hold) hnew
  · exact (Memory.read_eq_none_iff _ a).mpr (not_lt.mp hnew)

/-! ## The obligations of spec/44_heap.md -/

/-- Settles O25: the count fits, so the heap afterwards is the old one grown by it, and every read of that is known. -/
theorem allocAppendsZeroBytes : Obligations.AllocAppendsZeroBytes :=
  fun limit s r hw hnonneg hfit =>
    ⟨_, (allocWith_regByte limit r s).trans (growHeap_fits hnonneg hfit), s.heap.wf_grow _ hw, Memory.read_grow hw _⟩

/-- Settles O24: growth that fits at HEAP_LIMIT writes the heap and the answer only. -/
theorem allocGrowsTheHeap : Obligations.AllocGrowsTheHeap :=
  fun s r hnonneg hfit =>
    ⟨s.heap.grow (sval (s.x r)).toNat, rfl, (allocWith_regByte _ r s).trans (growHeap_fits hnonneg hfit)⟩

/-- Settles O26: a negative count and a length past the limit are the two causes of the one fault. -/
theorem allocFaults : Obligations.AllocFaults :=
  fun limit s r hbad => (allocWith_regByte limit r s).trans (growHeap_faults hbad)

end Sys2Proof.Machine
end

section
/-! # The faults: which of them each instruction raises, and what the others answer (spec/60_exceptions.md) -/

namespace Sys2Proof.Machine

open Sys2Proof

/-! ## What a next state answers, by the instruction -/

section
variable {i : Instr} {s t : State}

/-- Each update that answers Continue belongs to opcodes other than HLT's (R110, R160). -/
theorem ExecNext.ne_hlt_of_continue (h : ExecNext i s t) (hout : t.out = some .continue) : i ≠ .hlt := by
  rintro rfl
  cases h with
  | badRegister | faulted | halted => cases hout
  | wroteRegister _ _ notHlt => exact notHlt rfl
  | divided _ _ _ _ own | compared _ own | jumped _ own | fellThrough own | grew _ own => cases own

/-- The fault is the arbiter's or the operation's own (R116, R191); without one the latch stays. -/
theorem ExecNext.faults_or_answers (h : ExecNext i s t) :
    (∃ f, t.fault = some f ∧ t.out = some (.halted (.fault f)) ∧
      (if i.WellFormed then f ∈ operationFaults i.op else f = .invalidRegisterIndex)) ∨
    (t.fault = s.fault ∧ t.out = some (if i = .hlt then .halted .hlt else .continue)) := by
  have hcont := h.ne_hlt_of_continue
  cases h with
  | badRegister bad => exact .inl ⟨_, rfl, rfl, by rw [if_neg bad]⟩
  | faulted f good own => exact .inl ⟨f, rfl, rfl, by rwa [if_pos good]⟩
  | halted isHlt => exact .inr ⟨rfl, by rw [if_pos isHlt]; rfl⟩
  | _ => exact .inr ⟨rfl, by rw [if_neg (hcont rfl)]; rfl⟩

end

/-! ## The obligation of spec/60_exceptions.md -/

/-- Settles O29, by the inversion of `exec`: only its two raising cases write the latch. -/
theorem faultsByInstruction : Obligations.FaultsByInstruction :=
  fun _ _ _ ht => (exec_next ht).faults_or_answers

end Sys2Proof.Machine
end

section
/-! # Runs that never return: a step that only answers Continue repeats forever (spec/70_reset_and_hazards.md) -/

namespace Sys2Proof.Machine

open Sys2Proof

/-! ## A jump to the offset its own step began at -/

/-- A jump from past the fetched bytes back to the offset they began at undoes the fetch's move of pc. -/
theorem jumpTo_pc_advance (s : State) (n : Nat) :
    jumpTo s.pc.toNat (s.advance n) = .next (s.answer .continue) := by
  rw [jumpTo_nonneg (Int.natCast_nonneg _), BitVec.ofInt_natCast, BitVec.ofNat_toNat, BitVec.setWidth_eq]
  rfl

section
variable {m : OpcodeMap} {s : State}

/-- The target of a JMP is the register's value itself (R164). -/
theorem stepWith_of_jmp_self {r : RegIndex} (hm : m.Admissible) (hrun : Running s)
    (hcode : s.prog.Holds s.pc.toNat (encodeWith m (.jmp (regByte r)))) (htarget : sval (s.x r) = s.pc.toNat) :
    stepWith m s = .next (s.answer .continue) := by
  rw [stepWith_of_holds hm hrun hcode, exec_jmp_regByte, State.x_advance, htarget, jumpTo_pc_advance]

/-- The base of a JMPB is the offset after its two bytes (R161, R166). -/
theorem stepWith_of_jmpb_two {r : RegIndex} (hm : m.Admissible) (hrun : Running s) (hpc : s.pc.toNat ≤ 2 ^ 32)
    (hcode : s.prog.Holds s.pc.toNat (encodeWith m (.jmpb (regByte r)))) (hback : sval (s.x r) = 2) :
    stepWith m s = .next (s.answer .continue) := by
  have hbase : (s.advance 2).pc.toNat = s.pc.toNat + 2 := toNat_pc_advance (by omega)
  have htarget : ((s.pc.toNat + 2 : Nat) : Int) - 2 = s.pc.toNat := by omega
  calc stepWith m s
      = exec (.jmpb (regByte r)) (s.advance 2) := stepWith_of_holds hm hrun hcode
    _ = jumpTo s.pc.toNat (s.advance 2) := by rw [exec_jmpb_regByte, State.x_advance, hback, hbase, htarget]
    _ = .next (s.answer .continue) := jumpTo_pc_advance s 2

/-! ## Such a step repeats, since no step reads the answer (R37) -/

/-- A state whose step changes nothing but the answer, to Continue, is never left (R120, R226). -/
theorem runFor_eq_none_of_repeats (hstep : stepWith m s = .next (s.answer .continue)) (n : Nat) :
    runFor m n s = none := by
  induction n generalizing s with
  | zero => rfl
  | succ n ih =>
    have hagain : stepWith m (s.answer .continue) = .next (s.answer .continue) :=
      (outputIsNeverRead m s _).trans hstep
    exact (runFor_succ n hstep).trans (ih hagain)

end

/-! ## The obligation of spec/70_reset_and_hazards.md -/

/-- Settles O53: the step of either self-jump changes nothing but the answer, to Continue. -/
theorem selfJumpsNeverHalt : Obligations.SelfJumpsNeverHalt := by
  rintro m s r n hm hrun hpc (⟨hcode, htarget⟩ | ⟨hcode, hback⟩)
  · exact runFor_eq_none_of_repeats (stepWith_of_jmp_self hm hrun hcode htarget) n
  · exact runFor_eq_none_of_repeats (stepWith_of_jmpb_two hm hrun hpc hcode hback) n

end Sys2Proof.Machine
end
